-- ==== Sys2Proof/Word.lean ====
section
/-! DEFINITION. The bit-vector types of the machine: bytes, register values, and the operand fields of
`30_encoding.md` rule R77. -/

namespace Sys2Proof

/-- A byte of the Linear Memory (`10_state.md` rule R35), and an opcode byte (rule R70). -/
abbrev Byte := BitVec 8

/-- A register's value, an address or an `imm32` field: 32 bits, unsigned (rules R20, R51, R79). -/
abbrev Word := BitVec 32

/-- A `reg` field: a 16-bit raw register index (rule R80). -/
abbrev RegIdx := BitVec 16

/-- An `idx8` field: a bit number from 0 to 255 (rule R79). -/
abbrev BitIdx := BitVec 8

/-- The 64-bit argument of an instruction (rule R70). -/
abbrev Argument := BitVec 64

end Sys2Proof
end

