-- ==== Sys2Proof/Config.lean ====
section
/-! DEFINITION. What one machine instance fixes at its construction (`00_scope.md` rule R7): its sizes and its
opcode map; and the names the opcode map and the field-width table speak of. The step never changes them. -/

namespace Sys2Proof

/-- The 27 mnemonics, in the order of the opcode table (`30_encoding.md` rules R78 and R81). -/
inductive Opcode where
  | mov | imm | mget | mset
  | teq | tgt | tlt | cjmp | cjmpr | call | callr
  | sbit | gbit | shr | shl
  | inc | dec | uadd | usub | umul | udiv | umod
  | push | pop
  | dout | din
  | halt
  deriving DecidableEq, Repr

/-- Every mnemonic once, in table order. -/
def Opcode.all : List Opcode :=
  [.mov, .imm, .mget, .mset, .teq, .tgt, .tlt, .cjmp, .cjmpr, .call, .callr, .sbit, .gbit, .shr, .shl,
   .inc, .dec, .uadd, .usub, .umul, .udiv, .umod, .push, .pop, .dout, .din, .halt]

/-- `OPCODE_VALUE` (rules R7 and R81): the byte that selects each opcode, as a table. -/
abbrev OpcodeMap := List (Opcode × Byte)

/-- The kinds of an argument field (rule R77). -/
inductive FieldKind where
  | reg     -- a 16-bit raw register index
  | imm32   -- a 32-bit immediate
  | idx8    -- an 8-bit bit index
  | bit1    -- a 1-bit value
  deriving DecidableEq, Repr

/-- The eight argument formats (rule R77). -/
inductive Format where
  | f0 | fr | fi | frr | fir | frrr | fsb | fgb
  deriving DecidableEq, Repr

/-- The arguments of construction (rules R7 and R250). They are plain data carried by the state, so that a
statement about every state is a statement about every machine instance (log entry 1). -/
structure Params where
  /-- `MEM_CAPACITY`: the size of the Linear Memory in bytes. -/
  memCapacity : Nat
  /-- `SP_COUNT`: the number of special-purpose register slots, named and reserved. -/
  spCount : Nat
  /-- `GP_COUNT`: the number of general-purpose registers. -/
  gpCount : Nat
  /-- `OPCODE_VALUE`. -/
  opcodes : OpcodeMap
  deriving DecidableEq, Repr

/-- `N_REG`, the total register count (rules R7 and R20). -/
def Params.nReg (p : Params) : Nat := p.spCount + p.gpCount

end Sys2Proof
end

