-- ==== Sys2Proof/Syntax.lean ====
section
/-! DEFINITION. The instructions with their typed operand fields: one constructor per row of
`spec/opcode_table.json`, operands in the field order of `30_encoding.md` rule R78. -/

namespace Sys2Proof

/-- An instruction of the core (rule R78). -/
inductive Instr where
  | mov (src dst : RegIdx)                -- R130
  | imm (val : Word) (dst : RegIdx)       -- R131
  | mget (addr dst : RegIdx)              -- R132
  | mset (addr src : RegIdx)              -- R133
  | teq (a b : RegIdx)                    -- R141
  | tgt (a b : RegIdx)                    -- R142
  | tlt (a b : RegIdx)                    -- R143
  | cjmp (target : Word)                  -- R144
  | cjmpr (reg : RegIdx)                  -- R145
  | call (target : Word)                  -- R147
  | callr (reg : RegIdx)                  -- R148
  | sbit (r : RegIdx) (idx : BitIdx) (v : BitVec 1)   -- R160
  | gbit (src dst : RegIdx) (idx : BitIdx)            -- R161
  | shr (src dst amtreg : RegIdx)         -- R162
  | shl (src dst amtreg : RegIdx)         -- R163
  | inc (r : RegIdx)                      -- R172
  | dec (r : RegIdx)                      -- R173
  | uadd (a b dst : RegIdx)               -- R174
  | usub (a b dst : RegIdx)               -- R175
  | umul (a b dst : RegIdx)               -- R176
  | udiv (a b dst : RegIdx)               -- R177
  | umod (a b dst : RegIdx)               -- R178
  | push (r : RegIdx)                     -- R190
  | pop (r : RegIdx)                      -- R191
  | dout (sizereg : RegIdx)               -- R202
  | din (sizereg recvreg : RegIdx)        -- R203
  | halt                                  -- R109
  deriving DecidableEq, Repr

end Sys2Proof
end

