-- ==== Sys2Proof/WellFormed.lean ====
section
/-! DEFINITION. The checks on plain data: which parameters make a machine instance (`00_scope.md` rule R7), which
tables are an opcode map, and which instructions name only registers a machine has. The last is NO condition of
decoding: an instruction that fails it decodes and faults when it executes (`30_encoding.md` rule R83). -/

namespace Sys2Proof

/-- The sizes are in rule R7's ranges: `0 <= MEM_CAPACITY <= 2^32` and `SP_COUNT >= 5`. -/
def Params.inRange (p : Params) : Bool := decide (p.memCapacity ≤ 2 ^ 32) && decide (5 ≤ p.spCount)

/-- The table is a bijection from the 27 mnemonics onto 27 distinct bytes (rule R7, `OPCODE_VALUE`). -/
def OpcodeMap.bijective (m : OpcodeMap) : Bool :=
  decide ((m.map Prod.fst).Nodup) && decide ((m.map Prod.snd).Nodup) && Opcode.all.all (m.map Prod.fst).contains

/-- The parameters of a machine instance the host may construct (rules R7 and R261). -/
def Params.valid (p : Params) : Bool := p.inRange && OpcodeMap.bijective p.opcodes

/-- The `reg` fields of an instruction, in field order (rules R78 and R104). -/
def Instr.regFields : Instr → List RegIdx
  | .mov src dst => [src, dst]
  | .imm _ dst => [dst]
  | .mget addr dst => [addr, dst]
  | .mset addr src => [addr, src]
  | .teq a b => [a, b]
  | .tgt a b => [a, b]
  | .tlt a b => [a, b]
  | .cjmp _ => []
  | .cjmpr reg => [reg]
  | .call _ => []
  | .callr reg => [reg]
  | .sbit r _ _ => [r]
  | .gbit src dst _ => [src, dst]
  | .shr src dst amtreg => [src, dst, amtreg]
  | .shl src dst amtreg => [src, dst, amtreg]
  | .inc r => [r]
  | .dec r => [r]
  | .uadd a b dst => [a, b, dst]
  | .usub a b dst => [a, b, dst]
  | .umul a b dst => [a, b, dst]
  | .udiv a b dst => [a, b, dst]
  | .umod a b dst => [a, b, dst]
  | .push r => [r]
  | .pop r => [r]
  | .dout sizereg => [sizereg]
  | .din sizereg recvreg => [sizereg, recvreg]
  | .halt => []

/-- Every `reg` field of the instruction names one of the machine's `nReg` registers (rule R25). -/
def Instr.wellFormed (nReg : Nat) (i : Instr) : Bool := i.regFields.all fun r => decide (r.toNat < nReg)

end Sys2Proof
end

