-- ==== Sys2Proof/Decode.lean ====
section
/-! DEFINITION. The instruction codec (`30_encoding.md`): bytes to opcode and argument (R70 to R73), argument to
fields (R74 to R79), the opcode map (R81), and the encoder. Splitting bytes never fails; an opcode byte
outside the map is rejected by name, and the step turns that into a fault (R82). -/

namespace Sys2Proof

/-- The default opcode map (rule R81): table order from 0x00. -/
def defaultOpcodeMap : OpcodeMap :=
  [(.mov, 0x00), (.imm, 0x01), (.mget, 0x02), (.mset, 0x03), (.teq, 0x04), (.tgt, 0x05), (.tlt, 0x06),
   (.cjmp, 0x07), (.cjmpr, 0x08), (.call, 0x09), (.callr, 0x0A), (.sbit, 0x0B), (.gbit, 0x0C), (.shr, 0x0D)] ++
  [(.shl, 0x0E), (.inc, 0x0F), (.dec, 0x10), (.uadd, 0x11), (.usub, 0x12), (.umul, 0x13), (.udiv, 0x14),
   (.umod, 0x15), (.push, 0x16), (.pop, 0x17), (.dout, 0x18), (.din, 0x19), (.halt, 0x1A)]

/-- The parameters of the machine that `State.reset` constructs. `SP_COUNT`, `GP_COUNT` and the map are rule R7's
defaults; `MEM_CAPACITY` has none there, and the whole 32-bit address space is the model's DESIGN CHOICE (log entry 2). -/
def defaultParams : Params :=
  { memCapacity := 0x100000000, spCount := 8, gpCount := 256, opcodes := defaultOpcodeMap }

/-! ### Bytes and integers (`20_memory.md` rules R53 to R55) -/

/-- The `n` low bytes of `v`, least significant byte first. -/
def leBytes : Nat → Nat → List Byte
  | 0, _ => []
  | n + 1, v => BitVec.ofNat 8 v :: leBytes n (v / 256)

/-- The little-endian value of a byte string. -/
def leValue : List Byte → Nat
  | [] => 0
  | b :: bs => b.toNat + 256 * leValue bs

/-! ### The 9-byte format (rules R70 to R73) -/

/-- `instruction_size`: every instruction is 9 bytes (rules R7, R84). -/
def insnSize : Nat := 9

/-- An instruction before its opcode is looked up: the pair `(opcode, argument)` of rule R70. -/
structure RawInstr where
  opcode : Byte
  argument : Argument
  deriving DecidableEq, Repr

/-- `encode` of rule R72. -/
def encodeRaw (r : RawInstr) : List Byte := r.opcode :: leBytes 8 r.argument.toNat

/-- The 72-bit word view of rule R71: `W[7:0]` is the opcode and `W[71:8]` the argument. -/
def rawOfWord (w : Nat) : RawInstr := ⟨BitVec.ofNat 8 w, BitVec.ofNat 64 (w / 256)⟩

/-! ### Fields (rules R74 to R79) -/

/-- `decode_fields(W1, ..., Wn; argument)` (rule R74): contiguous fields from bit 0 up, zero-extended. -/
def decodeFields : List Nat → Nat → List Nat
  | [], _ => []
  | w :: ws, arg => arg % 2 ^ w :: decodeFields ws (arg / 2 ^ w)

/-- The inverse packing: each field at the offset rule R74 gives it, all ignored bits 0. -/
def packFields : List Nat → List Nat → Nat
  | w :: ws, f :: fs => f % 2 ^ w + 2 ^ w * packFields ws fs
  | _, _ => 0

/-- The width of a field of each kind (rule R77). -/
def FieldKind.width : FieldKind → Nat
  | .reg => 16
  | .imm32 => 32
  | .idx8 => 8
  | .bit1 => 1

/-- The fields of each format (rule R77). -/
def Format.kinds : Format → List FieldKind
  | .f0 => []
  | .fr => [.reg]
  | .fi => [.imm32]
  | .frr => [.reg, .reg]
  | .fir => [.imm32, .reg]
  | .frrr => [.reg, .reg, .reg]
  | .fsb => [.reg, .idx8, .bit1]
  | .fgb => [.reg, .reg, .idx8]

/-- The format of each opcode (rule R78). -/
def Opcode.format : Opcode → Format
  | .mov => .frr
  | .imm => .fir
  | .mget => .frr
  | .mset => .frr
  | .teq => .frr
  | .tgt => .frr
  | .tlt => .frr
  | .cjmp => .fi
  | .cjmpr => .fr
  | .call => .fi
  | .callr => .fr
  | .sbit => .fsb
  | .gbit => .fgb
  | .shr => .frrr
  | .shl => .frrr
  | .inc => .fr
  | .dec => .fr
  | .uadd => .frrr
  | .usub => .frrr
  | .umul => .frrr
  | .udiv => .frrr
  | .umod => .frrr
  | .push => .fr
  | .pop => .fr
  | .dout => .fr
  | .din => .frr
  | .halt => .f0

/-- `FIELD_WIDTHS(op)` (rules R7 and R78). -/
def fieldWidths (op : Opcode) : List Nat := op.format.kinds.map FieldKind.width

/-- Field `k` (from 0) as a bit vector of its kind's width. -/
def fieldAt (w : Nat) (fields : List Nat) (k : Nat) : BitVec w := BitVec.ofNat w (fields.getD k 0)

/-- The instruction of an opcode whose argument decodes to `f`; operands in field order (rules R76 and R78). -/
def instrOf (op : Opcode) (f : List Nat) : Instr :=
  match op with
  | .mov => .mov (fieldAt 16 f 0) (fieldAt 16 f 1)
  | .imm => .imm (fieldAt 32 f 0) (fieldAt 16 f 1)
  | .mget => .mget (fieldAt 16 f 0) (fieldAt 16 f 1)
  | .mset => .mset (fieldAt 16 f 0) (fieldAt 16 f 1)
  | .teq => .teq (fieldAt 16 f 0) (fieldAt 16 f 1)
  | .tgt => .tgt (fieldAt 16 f 0) (fieldAt 16 f 1)
  | .tlt => .tlt (fieldAt 16 f 0) (fieldAt 16 f 1)
  | .cjmp => .cjmp (fieldAt 32 f 0)
  | .cjmpr => .cjmpr (fieldAt 16 f 0)
  | .call => .call (fieldAt 32 f 0)
  | .callr => .callr (fieldAt 16 f 0)
  | .sbit => .sbit (fieldAt 16 f 0) (fieldAt 8 f 1) (fieldAt 1 f 2)
  | .gbit => .gbit (fieldAt 16 f 0) (fieldAt 16 f 1) (fieldAt 8 f 2)
  | .shr => .shr (fieldAt 16 f 0) (fieldAt 16 f 1) (fieldAt 16 f 2)
  | .shl => .shl (fieldAt 16 f 0) (fieldAt 16 f 1) (fieldAt 16 f 2)
  | .inc => .inc (fieldAt 16 f 0)
  | .dec => .dec (fieldAt 16 f 0)
  | .uadd => .uadd (fieldAt 16 f 0) (fieldAt 16 f 1) (fieldAt 16 f 2)
  | .usub => .usub (fieldAt 16 f 0) (fieldAt 16 f 1) (fieldAt 16 f 2)
  | .umul => .umul (fieldAt 16 f 0) (fieldAt 16 f 1) (fieldAt 16 f 2)
  | .udiv => .udiv (fieldAt 16 f 0) (fieldAt 16 f 1) (fieldAt 16 f 2)
  | .umod => .umod (fieldAt 16 f 0) (fieldAt 16 f 1) (fieldAt 16 f 2)
  | .push => .push (fieldAt 16 f 0)
  | .pop => .pop (fieldAt 16 f 0)
  | .dout => .dout (fieldAt 16 f 0)
  | .din => .din (fieldAt 16 f 0) (fieldAt 16 f 1)
  | .halt => .halt

/-! ### Decoding (rules R81 and R82) -/

/-- Why a byte string is no instruction: it is not 9 bytes long (rule R84), or its opcode byte is not in the map
(rule R82). -/
inductive DecodeError where
  | wrongLength (length : Nat)
  | unknownOpcode (byte : Byte)
  deriving DecidableEq, Repr

/-- The mnemonic whose byte this is, if the map has one (rule R103). -/
def opcodeOf (m : OpcodeMap) (b : Byte) : Option Opcode := (m.find? fun e => decide (e.2 = b)).map Prod.fst

/-- `OPCODE_VALUE(op)`; 0 for a mnemonic the table leaves out, which no bijective map does. -/
def byteOf (m : OpcodeMap) (op : Opcode) : Byte := ((m.find? fun e => decide (e.1 = op)).map Prod.snd).getD 0

/-- The decode phase on an opcode and argument pair (rule R103): `none` for an opcode byte outside the map. -/
def decodeInstr (m : OpcodeMap) (r : RawInstr) : Option Instr :=
  (opcodeOf m r.opcode).map fun op => instrOf op (decodeFields (fieldWidths op) r.argument.toNat)

/-- Decoding of a byte string, lowest address first. Every string of 9 bytes has an opcode and an argument
(rule R73); a string that is no instruction is rejected by name. -/
def decode (m : OpcodeMap) (bytes : List Byte) : Except DecodeError Instr :=
  if bytes.length = insnSize then
    match decodeInstr m (rawOfWord (leValue bytes)) with
    | some i => .ok i
    | none => .error (.unknownOpcode (rawOfWord (leValue bytes)).opcode)
  else .error (.wrongLength bytes.length)

/-- The instruction that the decoder reads from a word of the opcode table: bit 0 of `w` is bit 0 of the opcode
byte, as in the 72-bit view of rule R71; bits at or above `nbits` are 0. -/
def decodeTableWord (nbits w : Nat) : Option Instr :=
  (decode defaultOpcodeMap (leBytes insnSize (w % 2 ^ nbits))).toOption

/-! ### Encoding (rules R72 and R76) -/

/-- The mnemonic of an instruction. -/
def Instr.opcode : Instr → Opcode
  | .mov _ _ => .mov
  | .imm _ _ => .imm
  | .mget _ _ => .mget
  | .mset _ _ => .mset
  | .teq _ _ => .teq
  | .tgt _ _ => .tgt
  | .tlt _ _ => .tlt
  | .cjmp _ => .cjmp
  | .cjmpr _ => .cjmpr
  | .call _ => .call
  | .callr _ => .callr
  | .sbit _ _ _ => .sbit
  | .gbit _ _ _ => .gbit
  | .shr _ _ _ => .shr
  | .shl _ _ _ => .shl
  | .inc _ => .inc
  | .dec _ => .dec
  | .uadd _ _ _ => .uadd
  | .usub _ _ _ => .usub
  | .umul _ _ _ => .umul
  | .udiv _ _ _ => .udiv
  | .umod _ _ _ => .umod
  | .push _ => .push
  | .pop _ => .pop
  | .dout _ => .dout
  | .din _ _ => .din
  | .halt => .halt

/-- The field values of an instruction, in field order. -/
def Instr.fields : Instr → List Nat
  | .mov src dst => [src.toNat, dst.toNat]
  | .imm val dst => [val.toNat, dst.toNat]
  | .mget addr dst => [addr.toNat, dst.toNat]
  | .mset addr src => [addr.toNat, src.toNat]
  | .teq a b => [a.toNat, b.toNat]
  | .tgt a b => [a.toNat, b.toNat]
  | .tlt a b => [a.toNat, b.toNat]
  | .cjmp target => [target.toNat]
  | .cjmpr reg => [reg.toNat]
  | .call target => [target.toNat]
  | .callr reg => [reg.toNat]
  | .sbit r idx v => [r.toNat, idx.toNat, v.toNat]
  | .gbit src dst idx => [src.toNat, dst.toNat, idx.toNat]
  | .shr src dst amtreg => [src.toNat, dst.toNat, amtreg.toNat]
  | .shl src dst amtreg => [src.toNat, dst.toNat, amtreg.toNat]
  | .inc r => [r.toNat]
  | .dec r => [r.toNat]
  | .uadd a b dst => [a.toNat, b.toNat, dst.toNat]
  | .usub a b dst => [a.toNat, b.toNat, dst.toNat]
  | .umul a b dst => [a.toNat, b.toNat, dst.toNat]
  | .udiv a b dst => [a.toNat, b.toNat, dst.toNat]
  | .umod a b dst => [a.toNat, b.toNat, dst.toNat]
  | .push r => [r.toNat]
  | .pop r => [r.toNat]
  | .dout sizereg => [sizereg.toNat]
  | .din sizereg recvreg => [sizereg.toNat, recvreg.toNat]
  | .halt => []

/-- The opcode and argument pair of an instruction, its ignored bits 0 (log entry 19). -/
def rawOf (m : OpcodeMap) (i : Instr) : RawInstr :=
  ⟨byteOf m i.opcode, BitVec.ofNat 64 (packFields (fieldWidths i.opcode) i.fields)⟩

/-- The 9 bytes of an instruction. -/
def encode (m : OpcodeMap) (i : Instr) : List Byte := encodeRaw (rawOf m i)

end Sys2Proof
end

