-- ==== Sys2Proof/Machine/State.lean ====
section
/-! DEFINITION. The machine's state as plain data (`10_state.md`), the names of its faults (`60_exceptions.md`
rules R221 and R222), and the state after construction (rule R40). -/

namespace Sys2Proof.Machine

/-- The run status (rule R36). -/
inductive Status where
  | empty     -- constructed, no program
  | ready     -- program loaded
  | running
  | halted    -- terminal
  | faulted   -- terminal
  deriving DecidableEq, Repr

/-- When a fault is raised (rule R221): by `load_program`, or during a step. -/
inductive Phase where
  | preload
  | runtime
  deriving DecidableEq, Repr

/-- How severe a report is (rule R221). -/
inductive Severity where
  | internal
  | fatal
  | warning
  deriving DecidableEq, Repr

/-- The fault causes with the information each records (rule R222), less the trailing `ip`, which stands once in
the fault record. -/
inductive Cause where
  /-- Code 1, `load_program`: the program's size and `MEM_CAPACITY`. -/
  | programTooLarge (size capacity : Nat)
  /-- Code 2, every step. -/
  | fetchOutOfBounds
  /-- Code 3, every step: the opcode byte. -/
  | unknownOpcode (byte : Byte)
  /-- Code 4, every opcode with a `reg` field: the first field that names no register. -/
  | registerOutOfRange (index : RegIdx)
  /-- Code 5, the memory, stack and I/O instructions: the access `(a, n)`. -/
  | memoryOutOfBounds (address : Word) (length : Nat)
  /-- Code 6, `udiv` and `umod`. -/
  | divideByZero
  /-- Code 7, `din`: the port, the length asked for and the length returned. -/
  | ioContractViolation (port maxLen : Word) (length : Nat)
  deriving DecidableEq, Repr

/-- The fault record (rule R36): `cause` carries the record's `cause` and `info`; `ip` is present for a runtime
fault only. -/
structure FaultRecord where
  phase : Phase
  severity : Severity
  cause : Cause
  ip : Option Word
  deriving DecidableEq, Repr

/-- A report to the Diagnostics collaborator (rules R224 and R230). The message text is not architectural
(rule R229); what it is about stands in its place. -/
structure Report where
  phase : Phase
  severity : Severity
  cause : Cause
  deriving DecidableEq, Repr

/-- An `IoRead` issued and not yet answered (rules R100 and R203). -/
structure IoRequest where
  port : Word
  maxLen : Word
  deriving DecidableEq, Repr

/-- A completed transaction with the I/O collaborator (rule R200). -/
inductive IoEvent where
  | write (port : Word) (bytes : List Byte)
  | read (port maxLen : Word) (answer : List Byte)
  deriving DecidableEq, Repr

/-- The register file (rule R20) as (index, value) pairs: indices strictly rising, no listed 0 (log entry 13). -/
abbrev RegFile := List (Nat × Word)

/-- The Linear Memory (rule R35) as (address, byte) pairs: addresses strictly rising, no listed 0. -/
abbrev Memory := List Host.Cell

/-- Everything the spec gives the machine. -/
structure State where
  /-- The arguments of construction (rule R7), fixed for the instance (rule R250). -/
  cfg : Params
  /-- `x[0 .. N_REG-1]` (rule R20): `ip`, `sp`, `dbport`, `dbdata`, `fl`, the reserved slots, the general registers. -/
  regs : RegFile
  /-- `mem[0 .. MEM_CAPACITY-1]` (rule R35). -/
  mem : Memory
  /-- The run status (rule R36). -/
  status : Status
  /-- The fault record, if a fault was raised (rule R36). -/
  fault : Option FaultRecord
  /-- `program_size` (rule R37). -/
  programSize : Word
  /-- `ip_written` (rule R38). -/
  ipWritten : Bool
  /-- The `IoRead` of a `din` that waits for the host (rules R100, R203 and R262). -/
  pendingRead : Option IoRequest
  /-- The answers the I/O collaborator has yet to give, in order: the oracle of rule R7 (log entry 5). -/
  answers : List (List Byte)
  /-- The transactions so far, oldest first (rules R201 and R256). -/
  ioLog : List IoEvent
  /-- The Diagnostics reports so far, oldest first (rules R224 and R256). -/
  reports : List Report
  deriving DecidableEq, Repr

/-- Why the MODEL stops. The spec's own faults are no constructor of this type: a fault has a state after it
(rule R224), so the model takes it as a next state with status FAULTED (log entry 7). -/
inductive Fault where
  /-- Raised by the step of a RUNNING state whose sizes are outside rule R7's ranges (fewer than five special
  registers, or memory that no address can name). No construction gives such a state. Safe (log entry 15). -/
  | notConstructible
  deriving DecidableEq, Repr

/-- What the model declines to do. No instruction's meaning answers with one of these. -/
inductive Refusal where
  /-- An instruction without a meaning in `exec`, by its mnemonic. No arm answers so. Safe. -/
  | notModelled (mnemonic : String)
  /-- Raised by `construct`: parameters that rule R7 does not allow (rule R261). Safe. -/
  | badParameters
  /-- Raised by `loadProgram` in any status but EMPTY (rule R252). Safe. -/
  | loadNotEmpty
  /-- Raised by `startRun` in any status but READY (rule R252). Safe. -/
  | runNotReady
  /-- Raised by `answerRead` when no `din` waits (rules R100 and R261). Safe. -/
  | noPendingRead
  deriving DecidableEq, Repr

/-- The outcomes of a step, of a meaning, and of a host command. -/
abbrev Out := Host.Outcome State Fault Refusal

/-- A machine just constructed (rules R40 and R250): every register and byte 0, status EMPTY. `oracle` is the
I/O collaborator it is given (rule R7). -/
def State.construct (p : Params) (oracle : List (List Byte)) : State :=
  { cfg := p, regs := [], mem := [], status := .empty, fault := none, programSize := 0, ipWritten := false,
    pendingRead := none, answers := oracle, ioLog := [], reports := [] }

/-- The machine right after reset: construction (rule R250) with the default parameters (log entry 2) and a
collaborator that has not answered yet (log entry 5). -/
def State.reset : State := State.construct defaultParams []

end Sys2Proof.Machine
end

