-- ==== Sys2Proof/Machine/Ops.lean ====
section
/-! DEFINITION. The named operations over registers and memory (`10_state.md`, `20_memory.md`), and raising a
fault (`60_exceptions.md`). Meanings read the state they are given and write through these alone. -/

namespace Sys2Proof.Machine

/-! ### Sparse storage: (key, value) pairs, keys strictly rising, no listed default -/

/-- The value at a key; an unlisted key holds `d`. -/
def cellGet {α : Type} (d : α) : List (Nat × α) → Nat → α
  | [], _ => d
  | (k, v) :: rest, a => if a = k then v else cellGet d rest a

/-- Put a value before the first greater key. -/
def cellInsert {α : Type} : List (Nat × α) → Nat → α → List (Nat × α)
  | [], a, v => [(a, v)]
  | (k, w) :: rest, a, v => if a < k then (a, v) :: (k, w) :: rest else (k, w) :: cellInsert rest a v

/-- Write a value; writing `d` removes the entry. -/
def cellSet {α : Type} [DecidableEq α] (d : α) (m : List (Nat × α)) (a : Nat) (v : α) : List (Nat × α) :=
  let others := m.filter fun c => decide (c.1 ≠ a)
  if v = d then others else cellInsert others a v

/-- The canonical form: keys strictly rising, no listed default. -/
def cellsWf {α : Type} [DecidableEq α] (d : α) : List (Nat × α) → Bool
  | [] => true
  | (k, v) :: rest => decide (v ≠ d) && rest.all (fun c => decide (k < c.1)) && cellsWf d rest

/-! ### The register file (rules R20 to R31) -/

/-- Indices of the named special-purpose registers (rule R22). -/
def regIp : Nat := 0
/-- See `regIp`. -/
def regSp : Nat := 1
/-- See `regIp`. -/
def regDbport : Nat := 2
/-- See `regIp`. -/
def regDbdata : Nat := 3
/-- See `regIp`. -/
def regFl : Nat := 4

/-- What an unlisted register reads as: the value after construction (rule R40). -/
def unlistedReg : Word := 0

/-- The register file is in canonical form. -/
def RegFile.wf (r : RegFile) : Bool := cellsWf unlistedReg r

/-- `x[r]` (rule R10). -/
def State.reg (s : State) (r : Nat) : Word := cellGet unlistedReg s.regs r

/-- `x[r] <- v` (rule R10); a write to `x[IP]`, of any value, sets `ip_written` (rule R38). -/
def State.setReg (s : State) (r : Nat) (v : Word) : State :=
  { s with regs := cellSet unlistedReg s.regs r v, ipWritten := s.ipWritten || decide (r = regIp) }

/-- `x[IP]`, also `pc` (rules R10 and R28). -/
def State.ip (s : State) : Word := s.reg regIp
/-- `x[SP]` (rule R29). -/
def State.sp (s : State) : Word := s.reg regSp
/-- `x[DBPORT]` (rule R30). -/
def State.dbport (s : State) : Word := s.reg regDbport
/-- `x[DBDATA]` (rule R31). -/
def State.dbdata (s : State) : Word := s.reg regDbdata
/-- `x[FL]` (rule R32). -/
def State.fl (s : State) : Word := s.reg regFl

/-! ### The Linear Memory (rules R50 to R56) -/

/-- What an unlisted address reads as: the byte after construction (rule R40). -/
def unlistedByte : Byte := 0

/-- The memory is in canonical form. -/
def Memory.wf (m : Memory) : Bool := cellsWf unlistedByte m

/-- `mem[a]`. -/
def readByte (m : Memory) (a : Nat) : Byte := cellGet unlistedByte m a

/-- `mem[a] <- b`. -/
def writeByte (m : Memory) (a : Nat) (b : Byte) : Memory := cellSet unlistedByte m a b

/-- `MemBytes(a, n)` (rule R10): lowest address first. -/
def readBytes (m : Memory) (a : Nat) : Nat → List Byte
  | 0 => []
  | n + 1 => readByte m a :: readBytes m (a + 1) n

/-- Store a byte string at `a`, lowest address first. -/
def writeBytes (m : Memory) (a : Nat) : List Byte → Memory
  | [] => m
  | b :: bs => writeBytes (writeByte m a b) (a + 1) bs

/-- `MemRead(a, n)` (rule R53). -/
def memRead (m : Memory) (a n : Nat) : Nat := leValue (readBytes m a n)

/-- `MemWrite(a, n, v)` (rule R54). -/
def memWrite (m : Memory) (a n v : Nat) : Memory := writeBytes m a (leBytes n v)

/-- `mem[a]` of a state. -/
def State.byte (s : State) (a : Nat) : Byte := readByte s.mem a

/-- The 32-bit word at `a`: `MemRead(a, 4)` (rules R53 and R58). -/
def State.word (s : State) (a : Nat) : Word := BitVec.ofNat 32 (memRead s.mem a 4)

/-- Store a 32-bit word at `a`: `MemWrite(a, 4, v)` (rules R54 and R58). -/
def State.setWord (s : State) (a : Nat) (v : Word) : State := { s with mem := memWrite s.mem a 4 v.toNat }

/-- Store a byte string at `a` (the delivered bytes of `din`, the image of `load_program`). -/
def State.setBytes (s : State) (a : Nat) (bs : List Byte) : State := { s with mem := writeBytes s.mem a bs }

/-! ### Raising a fault (rules R221 to R230) -/

/-- The numeric code of a cause (rule R222). -/
def Cause.code : Cause → Nat
  | .programTooLarge _ _ => 1
  | .fetchOutOfBounds => 2
  | .unknownOpcode _ => 3
  | .registerOutOfRange _ => 4
  | .memoryOutOfBounds _ _ => 5
  | .divideByZero => 6
  | .ioContractViolation _ _ _ => 7

/-- When each cause is raised (rule R222). -/
def Cause.phase : Cause → Phase
  | .programTooLarge _ _ => .preload
  | .fetchOutOfBounds => .runtime
  | .unknownOpcode _ => .runtime
  | .registerOutOfRange _ => .runtime
  | .memoryOutOfBounds _ _ => .runtime
  | .divideByZero => .runtime
  | .ioContractViolation _ _ _ => .runtime

/-- The severity of each cause (rule R222). -/
def Cause.severity : Cause → Severity
  | .programTooLarge _ _ => .fatal
  | .fetchOutOfBounds => .fatal
  | .unknownOpcode _ => .fatal
  | .registerOutOfRange _ => .fatal
  | .memoryOutOfBounds _ _ => .fatal
  | .divideByZero => .fatal
  | .ioContractViolation _ _ _ => .internal

/-- `is_fatal(severity)` (rule R230). -/
def Severity.isFatal : Severity → Bool
  | .internal => true
  | .fatal => true
  | .warning => false

/-- `Diagnostics.report`, and the end of the run that a fatal report brings (rules R221, R224 and R230). A warning
is logged and changes nothing else (rule R228). -/
def State.report (s : State) (r : Report) : State :=
  { s with reports := s.reports ++ [r], status := if r.severity.isFatal then .faulted else s.status }

/-- The fault record of a cause at an `ip`; a preload fault records no `ip` (rule R36). -/
def faultRecord (c : Cause) (ip : Word) : FaultRecord :=
  { phase := c.phase, severity := c.severity, cause := c,
    ip := match c.phase with
      | .preload => none
      | .runtime => some ip }

/-- What a fault does (rule R224): the fault record is written and the fault reported, which ends the run. The
state given is the one before the faulting instruction, so no register, memory byte or flag changes. -/
def State.raise (s : State) (c : Cause) : State :=
  { s with fault := some (faultRecord c s.ip) }.report { phase := c.phase, severity := c.severity, cause := c }

/-- The first cause that holds, in the order listed (rule R225). -/
def firstCause : List (Option Cause) → Option Cause
  | [] => none
  | some c :: _ => some c
  | none :: rest => firstCause rest

/-- The rest of an instruction, unless one of its checks raises (rules R11 and R105). -/
def State.checked (s : State) (checks : List (Option Cause)) (rest : Out) : Out :=
  match firstCause checks with
  | some c => .next (s.raise c)
  | none => rest

/-! ### The stack (rule R146) -/

/-- The memory and `sp` writes of `Push32(v)`, once its slot is checked; the address is the old `sp`. -/
def State.pushed (s : State) (v : Word) : State := (s.setWord s.sp.toNat v).setReg regSp (s.sp + 4)

/-- The slot `pop` reads: `sp` pre-decremented (rule R191). -/
def State.popSlot (s : State) : Word := s.sp - 4

end Sys2Proof.Machine
end

