-- ==== Sys2Proof/Machine/Operands.lean ====
section
/-! DEFINITION. Operand forms and operand checks. A `reg` operand is a raw index into the whole register file, with
no register hard-wired or protected (`10_state.md` rule R24); immediates are used unchanged (`30_encoding.md`
rule R79). Each check answers the cause it raises, if any. -/

namespace Sys2Proof.Machine

/-- The value of a `reg` operand. -/
def State.get (s : State) (r : RegIdx) : Word := s.reg r.toNat

/-- Write a register operand. -/
def State.put (s : State) (r : RegIdx) (v : Word) : State := s.setReg r.toNat v

/-- `CheckReg(i)` (rules R10 and R25). -/
def State.checkReg (s : State) (r : RegIdx) : Option Cause :=
  if r.toNat < s.cfg.nReg then none else some (.registerOutOfRange r)

/-- `CheckReg` of every `reg` field, in field order (rule R104). -/
def State.checkRegs (s : State) (rs : List RegIdx) : List (Option Cause) := rs.map s.checkReg

/-- `CheckMem(a, n)` (rules R10 and R52): exact sum, no wrap. -/
def State.checkMem (s : State) (a : Word) (n : Nat) : Option Cause :=
  if a.toNat + n ≤ s.cfg.memCapacity then none else some (.memoryOutOfBounds a n)

/-- The zero-divisor check of `udiv` and `umod` (rule R171). -/
def checkDivisor (d : Word) : Option Cause := if d = 0 then some .divideByZero else none

/-- The length check on an `IoRead` answer (rule R204). -/
def checkAnswer (port maxLen : Word) (answer : List Byte) : Option Cause :=
  if answer.length ≤ maxLen.toNat then none else some (.ioContractViolation port maxLen answer.length)

end Sys2Proof.Machine
end

