-- ==== Sys2Proof/Machine/Arithmetic.lean ====
section
/-! DEFINITION. `inc`, `dec`, `uadd`, `usub`, `umul`, `udiv`, `umod` (`44_arithmetic.md`): unsigned, modulo 2^32,
no flag (rule R170). -/

namespace Sys2Proof.Machine

/-- `inc r` (rule R172). -/
def execInc (r : RegIdx) (s : State) : Out := s.checked (s.checkRegs [r]) (.next (s.put r (s.get r + 1)))

/-- `dec r` (rule R173). -/
def execDec (r : RegIdx) (s : State) : Out := s.checked (s.checkRegs [r]) (.next (s.put r (s.get r - 1)))

/-- An operation on two source registers into a third, once the register fields and `extra` are checked. -/
def State.alu (s : State) (op : Word → Word → Word) (a b dst : RegIdx) (extra : List (Option Cause)) : Out :=
  s.checked (s.checkRegs [a, b, dst] ++ extra) (.next (s.put dst (op (s.get a) (s.get b))))

/-- `uadd a b dst` (rule R174). -/
def execUadd (a b dst : RegIdx) (s : State) : Out := s.alu (fun x y => x + y) a b dst []

/-- `usub a b dst` (rule R175). -/
def execUsub (a b dst : RegIdx) (s : State) : Out := s.alu (fun x y => x - y) a b dst []

/-- `umul a b dst` (rule R176): the low 32 bits. -/
def execUmul (a b dst : RegIdx) (s : State) : Out := s.alu (fun x y => x * y) a b dst []

/-- `udiv a b dst` (rules R171 and R177). -/
def execUdiv (a b dst : RegIdx) (s : State) : Out := s.alu (fun x y => x / y) a b dst [checkDivisor (s.get b)]

/-- `umod a b dst` (rules R171 and R178). -/
def execUmod (a b dst : RegIdx) (s : State) : Out := s.alu (fun x y => x % y) a b dst [checkDivisor (s.get b)]

end Sys2Proof.Machine
end

