-- ==== Sys2Proof/Machine/Flags.lean ====
section
/-! DEFINITION. Single-bit access and the one flag, TEST (`10_state.md` rules R32 to R34). -/

namespace Sys2Proof.Machine

/-- The word with bit `b` replaced, all other bits kept (rules R34 and R160). -/
def setBit (w : Word) (b : Nat) (v : Bool) : Word := (w &&& ~~~(1#32 <<< b)) ||| ((BitVec.ofBool v).zeroExtend 32 <<< b)

/-- The bit number of TEST in `fl` (rule R32). -/
def testBit : Nat := 0

/-- `get_flag(b)` (rule R34). -/
def State.getFlag (s : State) (b : Nat) : Bool := s.fl.getLsbD b

/-- `set_flag(b, v)` (rule R34): read-modify-write of `fl` (`90_conflicts.md` C5). -/
def State.setFlag (s : State) (b : Nat) (v : Bool) : State := s.setReg regFl (setBit s.fl b v)

/-- A comparison of two register operands, its result in TEST (rule R140). -/
def State.compare (s : State) (test : Word → Word → Bool) (a b : RegIdx) : Out :=
  s.checked (s.checkRegs [a, b]) (.next (s.setFlag testBit (test (s.get a) (s.get b))))

end Sys2Proof.Machine
end

