-- ==== Sys2Proof/Machine/BitShift.lean ====
section
/-! DEFINITION. `sbit`, `gbit`, `shr`, `shl` (`43_bit_shift.md`). -/

namespace Sys2Proof.Machine

/-- `sbit r idx v` (rule R160): a bit number of 32 or more names no bit, and nothing is written. -/
def execSbit (r : RegIdx) (idx : BitIdx) (v : BitVec 1) (s : State) : Out :=
  s.checked (s.checkRegs [r])
    (.next (if idx.toNat < 32 then s.put r (setBit (s.get r) idx.toNat (decide (v = 1#1))) else s))

/-- `gbit src dst idx` (rule R161): 0 for a bit number of 32 or more. -/
def execGbit (src dst : RegIdx) (idx : BitIdx) (s : State) : Out :=
  s.checked (s.checkRegs [src, dst])
    (.next (s.put dst ((BitVec.ofBool ((s.get src).getLsbD idx.toNat)).zeroExtend 32)))

/-- `v >> n`: the amount is used in full, so 0 from 32 on (rule R162). -/
def shiftRight (v n : Word) : Word := if n.toNat < 32 then v >>> n.toNat else 0

/-- `(v << n) mod 2^32`: the amount is used in full, so 0 from 32 on (rule R163). -/
def shiftLeft (v n : Word) : Word := if n.toNat < 32 then v <<< n.toNat else 0

/-- `shr src dst amtreg` (rule R162). -/
def execShr (src dst amtreg : RegIdx) (s : State) : Out :=
  s.checked (s.checkRegs [src, dst, amtreg]) (.next (s.put dst (shiftRight (s.get src) (s.get amtreg))))

/-- `shl src dst amtreg` (rule R163). -/
def execShl (src dst amtreg : RegIdx) (s : State) : Out :=
  s.checked (s.checkRegs [src, dst, amtreg]) (.next (s.put dst (shiftLeft (s.get src) (s.get amtreg))))

end Sys2Proof.Machine
end

