-- ==== Sys2Proof/Machine/CompareControl.lean ====
section
/-! DEFINITION. `teq`, `tgt`, `tlt`, `cjmp`, `cjmpr`, `call`, `callr` (`42_compare_control.md`). -/

namespace Sys2Proof.Machine

/-- `teq a b` (rule R141). -/
def execTeq (a b : RegIdx) (s : State) : Out := s.compare (fun x y => decide (x = y)) a b

/-- `tgt a b`, unsigned (rule R142). -/
def execTgt (a b : RegIdx) (s : State) : Out := s.compare (fun x y => decide (y.toNat < x.toNat)) a b

/-- `tlt a b`, unsigned (rule R143). -/
def execTlt (a b : RegIdx) (s : State) : Out := s.compare (fun x y => decide (x.toNat < y.toNat)) a b

/-- `pc <- t` if TEST is 1; nothing otherwise (rules R144 and R145). -/
def State.jumpIfTest (s : State) (t : Word) : State := if s.getFlag testBit then s.setReg regIp t else s

/-- `cjmp imm` (rule R144). -/
def execCjmp (target : Word) (s : State) : Out := .next (s.jumpIfTest target)

/-- `cjmpr reg` (rule R145): the register is checked whatever TEST is. -/
def execCjmpr (reg : RegIdx) (s : State) : Out := s.checked (s.checkRegs [reg]) (.next (s.jumpIfTest (s.get reg)))

/-- The address of the instruction after this one, pushed by a call (rule R146). -/
def State.returnAddress (s : State) : Word := s.ip + BitVec.ofNat 32 insnSize

/-- `call imm` (rule R147). -/
def execCall (target : Word) (s : State) : Out :=
  s.checked [s.checkMem s.sp 4] (.next ((s.pushed s.returnAddress).setReg regIp target))

/-- `callr reg` (rule R148): the target is read before the push. -/
def execCallr (reg : RegIdx) (s : State) : Out :=
  s.checked (s.checkRegs [reg] ++ [s.checkMem s.sp 4])
    (.next ((s.pushed s.returnAddress).setReg regIp (s.get reg)))

end Sys2Proof.Machine
end

