-- ==== Sys2Proof/Machine/DataBus.lean ====
section
/-! DEFINITION. `dout`, `din` (`46_io.md`). What a port does with written bytes, and which bytes it answers, are the
collaborator's (rule R200): writes are logged, answers are taken from the list in the state (log entry 5). -/

namespace Sys2Proof.Machine

/-- `IoWrite(port, bytes)` (rules R200 and R201). -/
def State.ioWrite (s : State) (port : Word) (bytes : List Byte) : State :=
  { s with ioLog := s.ioLog ++ [.write port bytes] }

/-- `IoRead(port, maxLen)` answered with `answer`, leaving `later` for the reads after it (rules R200 and R201). -/
def State.ioAnswered (s : State) (port maxLen : Word) (answer : List Byte) (later : List (List Byte)) : State :=
  { s with answers := later, pendingRead := none, ioLog := s.ioLog ++ [.read port maxLen answer] }

/-- `IoRead(port, maxLen)` issued with no answer yet: the instruction waits (rules R203 and R262). -/
def State.ioWaits (s : State) (port maxLen : Word) : State := { s with pendingRead := some ⟨port, maxLen⟩ }

/-- `dout sizereg` (rule R202). -/
def execDout (sizereg : RegIdx) (s : State) : Out :=
  let n := s.get sizereg
  s.checked (s.checkRegs [sizereg] ++ [s.checkMem s.dbdata n.toNat])
    (.next (s.ioWrite s.dbport (readBytes s.mem s.dbdata.toNat n.toNat)))

/-- `din` after its checks (rules R203 and R204): wait while the host has given no answer; otherwise take the next
one, store the delivered bytes and their count, or fault if they are more than asked for. -/
def State.dinTransfer (s : State) (n : Word) (recvreg : RegIdx) : Out :=
  match s.answers with
  | [] => .next (s.ioWaits s.dbport n)
  | answer :: later =>
    let t := s.ioAnswered s.dbport n answer later
    t.checked [checkAnswer s.dbport n answer]
      (.next ((t.setBytes s.dbdata.toNat answer).put recvreg (BitVec.ofNat 32 answer.length)))

/-- `din sizereg recvreg` (rule R203): the whole requested range is checked before the read. -/
def execDin (sizereg recvreg : RegIdx) (s : State) : Out :=
  let n := s.get sizereg
  s.checked (s.checkRegs [sizereg, recvreg] ++ [s.checkMem s.dbdata n.toNat]) (s.dinTransfer n recvreg)

end Sys2Proof.Machine
end

