-- ==== Sys2Proof/Machine/Loop.lean ====
section
/-! DEFINITION. `halt`, and the parts of one step that every instruction shares (`40_execution_loop.md`): the start
of the step, the fetch and the advance. -/

namespace Sys2Proof.Machine

/-- `halt` (rule R109). -/
def execHalt (s : State) : Out := .next { s with status := .halted }

/-- The start of a step (rule R101): `ip_written <- 0`. A `din` that still waits issues its one request again from
the same state, so the old request is dropped here (log entry 6). -/
def State.beginStep (s : State) : State := { s with ipWritten := false, pendingRead := none }

/-- The fetch's bounds check (rule R102). -/
def State.checkFetch (s : State) : Option Cause :=
  if s.ip.toNat + insnSize ≤ s.cfg.memCapacity then none else some .fetchOutOfBounds

/-- The 9 bytes at `x[IP]`, as opcode and argument (rules R71 and R101). -/
def State.fetch (s : State) : RawInstr := rawOfWord (memRead s.mem s.ip.toNat insnSize)

/-- The advance (rule R106), `a` being the address the instruction was fetched from. It happens only when the
instruction has completed: the status is still RUNNING, `ip` was not written, and no `din` waits (rule R262). The
advance is the sequencer's write, not an instruction's, and leaves `ip_written` at 0 (log entry 10). -/
def State.advance (s : State) (a : Word) : State :=
  if s.status = .running ∧ s.ipWritten = false ∧ s.pendingRead = none then
    { s with regs := cellSet unlistedReg s.regs regIp (a + BitVec.ofNat 32 insnSize) }
  else s

/-- The advance after an execute phase. -/
def advanceOut (a : Word) : Out → Out
  | .next t => .next (t.advance a)
  | .fault r => .fault r
  | .refused r => .refused r

/-- Decode and execute, once the fetch is checked (rules R101 and R103). -/
def State.runFetched (s : State) (execute : Instr → State → Out) : Out :=
  match decodeInstr s.cfg.opcodes s.fetch with
  | some i => advanceOut s.ip (execute i s)
  | none => .next (s.raise (.unknownOpcode s.fetch.opcode))

/-- One step with a given execute phase (rules R100, R101 and R110). Outside RUNNING the core takes no step, and
the state stays as it is (log entry 8). -/
def State.sequence (s : State) (execute : Instr → State → Out) : Out :=
  match s.status with
  | .running =>
    if s.cfg.inRange then
      s.beginStep.checked [s.beginStep.checkFetch] (s.beginStep.runFetched execute)
    else .fault .notConstructible
  | .empty => .next s
  | .ready => .next s
  | .halted => .next s
  | .faulted => .next s

end Sys2Proof.Machine
end

