-- ==== Sys2Proof/Machine/MoveMemory.lean ====
section
/-! DEFINITION. `mov`, `imm`, `mget`, `mset` (`41_move_memory.md`). -/

namespace Sys2Proof.Machine

/-- `mov src dst` (rule R130). -/
def execMov (src dst : RegIdx) (s : State) : Out :=
  s.checked (s.checkRegs [src, dst]) (.next (s.put dst (s.get src)))

/-- `imm val dst` (rule R131). -/
def execImm (val : Word) (dst : RegIdx) (s : State) : Out :=
  s.checked (s.checkRegs [dst]) (.next (s.put dst val))

/-- `mget addr dst` (rule R132). -/
def execMget (addr dst : RegIdx) (s : State) : Out :=
  let a := s.get addr
  s.checked (s.checkRegs [addr, dst] ++ [s.checkMem a 4]) (.next (s.put dst (s.word a.toNat)))

/-- `mset addr src` (rule R133). -/
def execMset (addr src : RegIdx) (s : State) : Out :=
  let a := s.get addr
  s.checked (s.checkRegs [addr, src] ++ [s.checkMem a 4]) (.next (s.setWord a.toNat (s.get src)))

end Sys2Proof.Machine
end

