-- ==== Sys2Proof/Machine/Stack.lean ====
section
/-! DEFINITION. `push`, `pop` (`45_stack.md`). -/

namespace Sys2Proof.Machine

/-- `push r` (rule R190). -/
def execPush (r : RegIdx) (s : State) : Out :=
  s.checked (s.checkRegs [r] ++ [s.checkMem s.sp 4]) (.next (s.pushed (s.get r)))

/-- `pop r` (rule R191): pre-decrement; the loaded word is the later write, so it wins when `r` is `sp`. -/
def execPop (r : RegIdx) (s : State) : Out :=
  s.checked (s.checkRegs [r] ++ [s.checkMem s.popSlot 4])
    (.next ((s.setReg regSp s.popSlot).put r (s.word s.popSlot.toNat)))

end Sys2Proof.Machine
end

