-- ==== Sys2Proof/Machine/Dispatch.lean ====
section
/-! DEFINITION. The execute phase: each instruction's meaning (`40_execution_loop.md` rule R101, parts 3 and 4). -/

namespace Sys2Proof.Machine

def exec (i : Instr) (s : State) : Host.Outcome State Fault Refusal :=
  match i with
  | .mov src dst => Sys2Proof.Machine.execMov src dst s
  | .imm val dst => Sys2Proof.Machine.execImm val dst s
  | .mget addr dst => Sys2Proof.Machine.execMget addr dst s
  | .mset addr src => Sys2Proof.Machine.execMset addr src s
  | .teq a b => Sys2Proof.Machine.execTeq a b s
  | .tgt a b => Sys2Proof.Machine.execTgt a b s
  | .tlt a b => Sys2Proof.Machine.execTlt a b s
  | .cjmp target => Sys2Proof.Machine.execCjmp target s
  | .cjmpr reg => Sys2Proof.Machine.execCjmpr reg s
  | .call target => Sys2Proof.Machine.execCall target s
  | .callr reg => Sys2Proof.Machine.execCallr reg s
  | .sbit r idx v => Sys2Proof.Machine.execSbit r idx v s
  | .gbit src dst idx => Sys2Proof.Machine.execGbit src dst idx s
  | .shr src dst amtreg => Sys2Proof.Machine.execShr src dst amtreg s
  | .shl src dst amtreg => Sys2Proof.Machine.execShl src dst amtreg s
  | .inc r => Sys2Proof.Machine.execInc r s
  | .dec r => Sys2Proof.Machine.execDec r s
  | .uadd a b dst => Sys2Proof.Machine.execUadd a b dst s
  | .usub a b dst => Sys2Proof.Machine.execUsub a b dst s
  | .umul a b dst => Sys2Proof.Machine.execUmul a b dst s
  | .udiv a b dst => Sys2Proof.Machine.execUdiv a b dst s
  | .umod a b dst => Sys2Proof.Machine.execUmod a b dst s
  | .push r => Sys2Proof.Machine.execPush r s
  | .pop r => Sys2Proof.Machine.execPop r s
  | .dout sizereg => Sys2Proof.Machine.execDout sizereg s
  | .din sizereg recvreg => Sys2Proof.Machine.execDin sizereg recvreg s
  | .halt => Sys2Proof.Machine.execHalt s

end Sys2Proof.Machine
end

