-- ==== Sys2Proof/Machine/Lifecycle.lean ====
section
/-! DEFINITION. The host's commands (`70_reset_and_hazards.md`): construct, load_program, run, and the answer to a
`din` that waits. They are no steps of the core; a command in the wrong status is refused and has no effect
(rule R252). -/

namespace Sys2Proof.Machine

/-- Construction with the host's arguments and its I/O collaborator (rules R250 and R261). -/
def construct (p : Params) (oracle : List (List Byte)) : Out :=
  if p.valid then .next (State.construct p oracle) else .refused .badParameters

/-- The bytes `load_program` writes at address 0 (rules R72 and R251). -/
def programImage (prog : List RawInstr) : List Byte := prog.flatMap encodeRaw

/-- The serialized size of a program (rules R37 and R251). -/
def programBytes (prog : List RawInstr) : Nat := insnSize * prog.length

/-- The state after a successful load (rules R41 and R251). The loader's write of `x[IP]` is no instruction's, and
leaves `ip_written` alone (log entry 10). -/
def State.loaded (s : State) (prog : List RawInstr) : State :=
  let size := BitVec.ofNat 32 (programBytes prog)
  { s with
    mem := writeBytes s.mem 0 (programImage prog)
    programSize := size
    regs := cellSet unlistedReg (cellSet unlistedReg s.regs regSp size) regIp 0
    status := .ready }

/-- `load_program` (rules R251 and R252). Only the size is checked. -/
def State.loadProgram (s : State) (prog : List RawInstr) : Out :=
  match s.status with
  | .empty =>
    if programBytes prog ≤ s.cfg.memCapacity then .next (s.loaded prog)
    else .next (s.raise (.programTooLarge (programBytes prog) s.cfg.memCapacity))
  | .ready => .refused .loadNotEmpty
  | .running => .refused .loadNotEmpty
  | .halted => .refused .loadNotEmpty
  | .faulted => .refused .loadNotEmpty

/-- `run` (rules R252 and R253). -/
def State.startRun (s : State) : Out :=
  match s.status with
  | .ready => .next { s with status := .running }
  | .empty => .refused .runNotReady
  | .running => .refused .runNotReady
  | .halted => .refused .runNotReady
  | .faulted => .refused .runNotReady

/-- The host answers the `IoRead` of a `din` that waits (rules R100, R261 and R262). -/
def State.answerRead (s : State) (answer : List Byte) : Out :=
  match s.pendingRead with
  | some _ => .next { s with answers := s.answers ++ [answer] }
  | none => .refused .noPendingRead

end Sys2Proof.Machine
end

