-- ==== Sys2Proof/Machine/Step.lean ====
section
/-! DEFINITION. One step of the machine, and the placing of an instruction for the next step. -/

namespace Sys2Proof.Machine

/-- One step (`40_execution_loop.md` rule R101): the sequencer around `exec`. -/
def step (s : State) : Host.Outcome State Fault Refusal := s.sequence exec

/-- `s` with an instruction word stored where the step fetches, bits at or above `nbits` zero, and the run
started: it stands for `load_program` and `run` (rules R251 and R253; log entry 9). -/
def State.withFetchWord (s : State) (nbits w : Nat) : State :=
  { s with mem := writeBytes s.mem s.ip.toNat (leBytes insnSize (w % 2 ^ nbits)), status := .running }

end Sys2Proof.Machine
end

