-- ==== Sys2Proof/Safety.lean ====
section
/-! DEFINITION. The terms in which claims speak: what a sound state is, and what an instruction leaves alone. -/

namespace Sys2Proof.Machine

/-- The representation is canonical and within the machine's sizes: memory and registers list no default, rise
strictly, and list nothing past `MEM_CAPACITY` or `N_REG` (`10_state.md` rules R20 and R35). -/
def State.stored (s : State) : Prop :=
  Memory.wf s.mem = true ∧ (∀ a, s.cfg.memCapacity ≤ a → s.byte a = unlistedByte) ∧
  RegFile.wf s.regs = true ∧ (∀ r, s.cfg.nReg ≤ r → s.reg r = unlistedReg)

/-- The fault record and the Diagnostics reports go with the status (rules R36, R224 and R225): a record exists
exactly in FAULTED, it is the record its cause gives, and it was reported exactly once. -/
def State.faultsAgree (s : State) : Prop :=
  match s.fault with
  | none => s.status ≠ .faulted ∧ s.reports = []
  | some f =>
    s.status = .faulted ∧ f.phase = f.cause.phase ∧ f.severity = f.cause.severity ∧
    (f.ip.isSome = true ↔ f.phase = .runtime) ∧ s.reports = [⟨f.phase, f.severity, f.cause⟩]

/-- A sound state: parameters a host may construct, canonical storage, agreeing fault records, and a read waits
for the host only while the run goes on (rules R7, R36, R100; the pending read is log entry 6). -/
def State.Inv (s : State) : Prop :=
  s.cfg.valid = true ∧ s.stored ∧ s.faultsAgree ∧ (s.pendingRead.isSome = true → s.status = .running)

/-- From `s` to `t` the written registers are exactly those of `regs` (so `ip_written` is set if `ip` is among
them), the only bytes that may change are the `n` from `lo`, and all other state is as before. -/
def Frame (s t : State) (regs : List Nat) (lo n : Nat) : Prop :=
  (∀ r, r ∉ regs → t.reg r = s.reg r) ∧
  (∀ a, (a < lo ∨ lo + n ≤ a) → t.byte a = s.byte a) ∧
  t.ipWritten = (s.ipWritten || decide (regIp ∈ regs)) ∧
  t.cfg = s.cfg ∧ t.status = s.status ∧ t.fault = s.fault ∧ t.programSize = s.programSize ∧
  t.pendingRead = s.pendingRead ∧ t.answers = s.answers ∧ t.ioLog = s.ioLog ∧ t.reports = s.reports

/-- From `s` to `t` the instruction has raised `c` and nothing else has happened (rule R224): the record and one
report are written, the status is FAULTED, and every register, byte and other field is as before. -/
def Raises (s t : State) (c : Cause) : Prop :=
  t.status = .faulted ∧ t.fault = some ⟨.runtime, c.severity, c, some s.ip⟩ ∧
  t.reports = s.reports ++ [⟨.runtime, c.severity, c⟩] ∧
  (∀ r, t.reg r = s.reg r) ∧ (∀ a, t.byte a = s.byte a) ∧ t.ipWritten = s.ipWritten ∧ t.cfg = s.cfg ∧
  t.programSize = s.programSize ∧ t.pendingRead = s.pendingRead ∧ t.answers = s.answers ∧ t.ioLog = s.ioLog

/-- The operand registers exist in this machine (rule R25). -/
abbrev State.has (s : State) (rs : List RegIdx) : Prop := ∀ r ∈ rs, r.toNat < s.cfg.nReg

/-- The registers an instruction writes when it completes from `s`: its destination, and those it writes of itself
(`ip`, `sp` and `fl`). An untaken jump and an `sbit` past bit 31 write none (rules R107, R160), and
neither does a `din` that waits for its answer (rule R203; log entries 5 and 6). -/
def writesOf (i : Instr) (s : State) : List Nat :=
  match i with
  | .mov _ dst => [dst.toNat]
  | .imm _ dst => [dst.toNat]
  | .mget _ dst => [dst.toNat]
  | .mset _ _ => []
  | .teq _ _ => [regFl]
  | .tgt _ _ => [regFl]
  | .tlt _ _ => [regFl]
  | .cjmp _ => if s.getFlag testBit then [regIp] else []
  | .cjmpr _ => if s.getFlag testBit then [regIp] else []
  | .call _ => [regSp, regIp]
  | .callr _ => [regSp, regIp]
  | .sbit r idx _ => if idx.toNat < 32 then [r.toNat] else []
  | .gbit _ dst _ => [dst.toNat]
  | .shr _ dst _ => [dst.toNat]
  | .shl _ dst _ => [dst.toNat]
  | .inc r => [r.toNat]
  | .dec r => [r.toNat]
  | .uadd _ _ dst => [dst.toNat]
  | .usub _ _ dst => [dst.toNat]
  | .umul _ _ dst => [dst.toNat]
  | .udiv _ _ dst => [dst.toNat]
  | .umod _ _ dst => [dst.toNat]
  | .push _ => [regSp]
  | .pop r => [regSp, r.toNat]
  | .dout _ => []
  | .din _ recvreg => if s.answers = [] then [] else [recvreg.toNat]
  | .halt => []

/-- The bytes an instruction may store to from `s`: address and count, with count 0 for one that stores nothing
(rule R58). A `din` stores at most the bytes it asked for (rule R203). -/
def storesOf (i : Instr) (s : State) : Nat × Nat :=
  match i with
  | .mset addr _ => ((s.get addr).toNat, 4)
  | .call _ => (s.sp.toNat, 4)
  | .callr _ => (s.sp.toNat, 4)
  | .push _ => (s.sp.toNat, 4)
  | .din sizereg _ => (s.dbdata.toNat, (s.get sizereg).toNat)
  | .mov _ _ => (0, 0)
  | .imm _ _ => (0, 0)
  | .mget _ _ => (0, 0)
  | .teq _ _ => (0, 0)
  | .tgt _ _ => (0, 0)
  | .tlt _ _ => (0, 0)
  | .cjmp _ => (0, 0)
  | .cjmpr _ => (0, 0)
  | .sbit _ _ _ => (0, 0)
  | .gbit _ _ _ => (0, 0)
  | .shr _ _ _ => (0, 0)
  | .shl _ _ _ => (0, 0)
  | .inc _ => (0, 0)
  | .dec _ => (0, 0)
  | .uadd _ _ _ => (0, 0)
  | .usub _ _ _ => (0, 0)
  | .umul _ _ _ => (0, 0)
  | .udiv _ _ _ => (0, 0)
  | .umod _ _ _ => (0, 0)
  | .pop _ => (0, 0)
  | .dout _ => (0, 0)
  | .halt => (0, 0)

/-- The codes of the faults each opcode can raise during execute (rule R223). -/
def raisable : Opcode → List Nat
  | .mov => [4]
  | .teq => [4]
  | .tgt => [4]
  | .tlt => [4]
  | .gbit => [4]
  | .shr => [4]
  | .shl => [4]
  | .uadd => [4]
  | .usub => [4]
  | .umul => [4]
  | .imm => [4]
  | .cjmpr => [4]
  | .sbit => [4]
  | .inc => [4]
  | .dec => [4]
  | .mget => [4, 5]
  | .mset => [4, 5]
  | .push => [4, 5]
  | .pop => [4, 5]
  | .callr => [4, 5]
  | .call => [5]
  | .cjmp => []
  | .halt => []
  | .udiv => [4, 6]
  | .umod => [4, 6]
  | .dout => [4, 5]
  | .din => [4, 5, 7]

end Sys2Proof.Machine
end

