-- ==== Sys2Proof/Certificates/Slice0/Obligations.lean ====
section
/-! DEFINITION. The statements for the provers. Each docstring names the rules it formalises. -/

open Sys2Proof Sys2Proof.Machine

/-! ### The codec (`30_encoding.md`) -/

/-- R72, R73: an instruction is its opcode byte and then its argument, least significant byte first; any 9 bytes
decode to the pair they spell; and decoding undoes encoding for every opcode byte and argument. -/
def Obligations.RawCodecIsLittleEndian : Prop :=
  (∀ r : RawInstr, encodeRaw r =
    [r.opcode, r.argument.extractLsb' 0 8, r.argument.extractLsb' 8 8, r.argument.extractLsb' 16 8,
      r.argument.extractLsb' 24 8, r.argument.extractLsb' 32 8, r.argument.extractLsb' 40 8,
      r.argument.extractLsb' 48 8, r.argument.extractLsb' 56 8]) ∧
  (∀ b0 b1 b2 b3 b4 b5 b6 b7 b8 : Byte,
    (rawOfWord (leValue [b0, b1, b2, b3, b4, b5, b6, b7, b8])).opcode = b0 ∧
    (rawOfWord (leValue [b0, b1, b2, b3, b4, b5, b6, b7, b8])).argument.toNat =
      b1.toNat + b2.toNat * 256 + b3.toNat * 256 ^ 2 + b4.toNat * 256 ^ 3 + b5.toNat * 256 ^ 4 +
      b6.toNat * 256 ^ 5 + b7.toNat * 256 ^ 6 + b8.toNat * 256 ^ 7) ∧
  (∀ r : RawInstr, rawOfWord (leValue (encodeRaw r)) = r)

/-- R74: field `k` occupies the bits from the sum of the widths before it, masked to its own width. -/
def Obligations.FieldsAreContiguousBitRanges : Prop :=
  ∀ (ws : List Nat) (arg : Argument),
    (decodeFields ws arg.toNat).length = ws.length ∧
    ∀ k, k < ws.length →
      (decodeFields ws arg.toNat).getD k 0 = arg.toNat / 2 ^ (ws.take k).sum % 2 ^ ws.getD k 0

/-- R75: two arguments that agree below the sum of the opcode's widths are the same instruction. -/
def Obligations.IgnoredArgumentBitsDoNothing : Prop :=
  ∀ (m : OpcodeMap) (b : Byte) (x y : Argument),
    (∀ op, opcodeOf m b = some op →
      x.toNat % 2 ^ (fieldWidths op).sum = y.toNat % 2 ^ (fieldWidths op).sum) →
    decodeInstr m ⟨b, x⟩ = decodeInstr m ⟨b, y⟩

/-- R73, R76, R78: for every opcode map and every instruction, with every operand at every value its field admits,
decoding the encoded bytes gives the instruction back. -/
def Obligations.DecodingUndoesEncoding : Prop :=
  ∀ m : OpcodeMap, m.bijective = true → ∀ i : Instr, decode m (encode m i) = .ok i

/-- R82: the unknown bytes of the default map are 0x1B to 0xFF, and fetching an unknown byte under any map raises
`UnknownOpcode` with `ip` left at it. -/
def Obligations.UnknownOpcodeBytesFault : Prop :=
  (∀ b : Byte, opcodeOf defaultOpcodeMap b = none ↔ 0x1B ≤ b.toNat) ∧
  (∀ s : State, s.status = .running → s.cfg.inRange = true → s.ip.toNat + 9 ≤ s.cfg.memCapacity →
    opcodeOf s.cfg.opcodes (s.byte s.ip.toNat) = none →
    ∃ t, step s = .next t ∧ Raises s.beginStep t (.unknownOpcode (s.byte s.ip.toNat)))

/-- Words written out in the spec (`95_test_vectors.md` section 2) decode to the instructions they stand for. -/
def Obligations.WrittenOutWordsDecode : Prop :=
  decode defaultOpcodeMap [0x00, 0x01, 0x00, 0x02, 0x00, 0x00, 0x00, 0x00, 0x00] = .ok (.mov 1 2) ∧
  decode defaultOpcodeMap [0x01, 0xFF, 0xFF, 0xFF, 0xFF, 0x0A, 0x00, 0xFF, 0xFF] = .ok (.imm 0xFFFFFFFF 10) ∧
  decode defaultOpcodeMap [0x0B, 0x08, 0x00, 0x05, 0xFE, 0x00, 0x00, 0x00, 0x00] = .ok (.sbit 8 5 0) ∧
  decode defaultOpcodeMap [0x0C, 0x08, 0x00, 0x09, 0x00, 0x1F, 0xFF, 0xFF, 0xFF] = .ok (.gbit 8 9 31) ∧
  decode defaultOpcodeMap [0x11, 0x08, 0x00, 0x09, 0x00, 0x0A, 0x00, 0x00, 0x00] = .ok (.uadd 8 9 10) ∧
  decode defaultOpcodeMap [0x09, 0x78, 0x56, 0x34, 0x12, 0x00, 0x00, 0x00, 0x00] = .ok (.call 0x12345678) ∧
  decode defaultOpcodeMap [0x16, 0x0A, 0x00, 0xAB, 0xCD, 0xEF, 0x01, 0x23, 0x45] = .ok (.push 10) ∧
  decode defaultOpcodeMap [0x19, 0x0A, 0x00, 0x0B, 0x00, 0x00, 0x00, 0x00, 0x00] = .ok (.din 10 11) ∧
  decode defaultOpcodeMap [0x1B, 0x00, 0x00, 0x00, 0x00, 0x00, 0x00, 0x00, 0x00] = .error (.unknownOpcode 0x1B)

/-! ### The step (`40_execution_loop.md`) -/

/-- R101: when the 9 bytes at `ip` decode to `i`, the step is `exec i` on the state with `ip_written` cleared (and
no read pending, log entry 6), and then the advance from the address fetched. -/
def Obligations.StepRunsTheDecodedInstruction : Prop :=
  ∀ (s : State) (i : Instr), s.status = .running → s.cfg.inRange = true → s.ip.toNat + 9 ≤ s.cfg.memCapacity →
    decode s.cfg.opcodes (readBytes s.mem s.ip.toNat 9) = .ok i →
    step s =
      match exec i { s with ipWritten := false, pendingRead := none } with
      | .next t => .next (t.advance s.ip)
      | .fault r => .fault r
      | .refused r => .refused r

/-- R102, R108: a fetch whose 9 bytes do not fit raises `FetchOutOfBounds`, `ip` left at the bad address. -/
def Obligations.FetchPastTheEndFaults : Prop :=
  ∀ s : State, s.status = .running → s.cfg.inRange = true → s.cfg.memCapacity < s.ip.toNat + 9 →
    ∃ t, step s = .next t ∧ Raises s.beginStep t .fetchOutOfBounds

/-- R106: after a committed execute (so no `din` waits) with the status still RUNNING, `ip` is the address after the
instruction if `ip_written` is 0, and what the instruction wrote if it is 1; every other register is as the
instruction left it. -/
def Obligations.AdvanceFollowsIpWritten : Prop :=
  ∀ (s u : State) (i : Instr), s.status = .running → s.cfg.inRange = true →
    s.ip.toNat + 9 ≤ s.cfg.memCapacity → decodeInstr s.cfg.opcodes s.fetch = some i →
    exec i s.beginStep = .next u → u.status = .running → u.pendingRead = none →
    ∃ t, step s = .next t ∧
      (u.ipWritten = false → t.ip.toNat = (s.ip.toNat + 9) % 2 ^ 32) ∧
      (u.ipWritten = true → t.ip = u.ip) ∧
      (∀ r, r ≠ 0 → t.reg r = u.reg r) ∧ (∀ a, t.byte a = u.byte a)

/-- R38, R107: an instruction that completes sets `ip_written` exactly if it writes `ip`, whoever writes it and
whatever the value; an untaken jump and an `sbit` past bit 31 do not. Nor does a `din` that waits, which has written
nothing yet (R203, R262; that it has no answer to take is log entry 5, and the state it leaves log entry 6). -/
def Obligations.EveryIpWriteSetsIpWritten : Prop :=
  ∀ (i : Instr) (s t : State), s.ipWritten = false → s.status ≠ .faulted → exec i s = .next t →
    t.status ≠ .faulted → (t.ipWritten = true ↔ 0 ∈ writesOf i s)

/-- R110: in HALTED and in FAULTED no number of steps changes anything. -/
def Obligations.EndedRunsStayAsTheyAre : Prop :=
  ∀ s : State, s.status = .halted ∨ s.status = .faulted → ∀ k, Host.Core.run Sys2Proof.core k s = .next s

/-- R109: `halt` is opcode 0x1A with its argument ignored; it ends the run with `ip` at the `halt` and every
register and byte as before. -/
def Obligations.HaltEndsTheRun : Prop :=
  (∀ arg : Argument, decodeInstr defaultOpcodeMap ⟨0x1A, arg⟩ = some .halt) ∧
  (∀ s : State, exec .halt s = .next { s with status := .halted }) ∧
  (∀ s : State, s.status = .running → s.cfg.inRange = true → s.ip.toNat + 9 ≤ s.cfg.memCapacity →
    decodeInstr s.cfg.opcodes s.fetch = some .halt →
    ∃ t, step s = .next t ∧ t.status = .halted ∧ t.ip = s.ip ∧ (∀ r, t.reg r = s.reg r) ∧
      (∀ a, t.byte a = s.byte a) ∧ t.fault = s.fault ∧ t.reports = s.reports ∧ t.ioLog = s.ioLog)

/-! ### Faults (`60_exceptions.md`) -/

/-- R224: a step that faults leaves every register and byte as it was, `ip` at the faulting instruction; it writes
the fault record, reports exactly once, and the run ends. -/
def Obligations.FaultingStepsCommitNothing : Prop :=
  ∀ s t : State, s.status = .running → step s = .next t → t.status = .faulted →
    ∃ c : Cause, c.severity.isFatal = true ∧ t.fault = some ⟨.runtime, c.severity, c, some s.ip⟩ ∧
      t.reports = s.reports ++ [⟨.runtime, c.severity, c⟩] ∧
      (∀ r, t.reg r = s.reg r) ∧ (∀ a, t.byte a = s.byte a) ∧ t.cfg = s.cfg ∧ t.programSize = s.programSize

/-- R25, R104: the first `reg` field, in field order, that names no register raises `RegisterOutOfRange`, for every
instruction, before anything else it would do or check. -/
def Obligations.RegisterFieldsAreCheckedFirst : Prop :=
  ∀ (i : Instr) (s : State) (r : RegIdx),
    i.regFields.find? (fun x => decide (s.cfg.nReg ≤ x.toNat)) = some r →
    ∃ t, exec i s = .next t ∧ Raises s t (.registerOutOfRange r)

/-- R223: which faults each opcode can raise during execute, and that it can raise no other. -/
def Obligations.EachOpcodeRaisesExactlyItsFaults : Prop :=
  ∀ (op : Opcode) (n : Nat),
    (∃ (i : Instr) (s t : State) (f : FaultRecord), i.opcode = op ∧ s.fault = none ∧ exec i s = .next t ∧
      t.fault = some f ∧ f.cause.code = n) ↔ n ∈ raisable op

/-- R222, R221, R36: the code, phase and severity of each of the seven causes, as the rule's table has them; the
fault record and the one report that raising a cause writes carry them, with `ip` for a runtime cause alone; and which
severities end the run. -/
def Obligations.CausesAreClassified : Prop :=
  (∀ size capacity, Cause.code (.programTooLarge size capacity) = 1 ∧
    Cause.phase (.programTooLarge size capacity) = .preload ∧
    Cause.severity (.programTooLarge size capacity) = .fatal) ∧
  (Cause.code .fetchOutOfBounds = 2 ∧ Cause.phase .fetchOutOfBounds = .runtime ∧
    Cause.severity .fetchOutOfBounds = .fatal) ∧
  (∀ byte, Cause.code (.unknownOpcode byte) = 3 ∧ Cause.phase (.unknownOpcode byte) = .runtime ∧
    Cause.severity (.unknownOpcode byte) = .fatal) ∧
  (∀ index, Cause.code (.registerOutOfRange index) = 4 ∧ Cause.phase (.registerOutOfRange index) = .runtime ∧
    Cause.severity (.registerOutOfRange index) = .fatal) ∧
  (∀ a n, Cause.code (.memoryOutOfBounds a n) = 5 ∧ Cause.phase (.memoryOutOfBounds a n) = .runtime ∧
    Cause.severity (.memoryOutOfBounds a n) = .fatal) ∧
  (Cause.code .divideByZero = 6 ∧ Cause.phase .divideByZero = .runtime ∧ Cause.severity .divideByZero = .fatal) ∧
  (∀ port maxLen k, Cause.code (.ioContractViolation port maxLen k) = 7 ∧
    Cause.phase (.ioContractViolation port maxLen k) = .runtime ∧
    Cause.severity (.ioContractViolation port maxLen k) = .internal) ∧
  (∀ (s : State) (c : Cause),
    (s.raise c).fault = some ⟨c.phase, c.severity, c, if c.phase = .runtime then some s.ip else none⟩ ∧
    (s.raise c).reports = s.reports ++ [⟨c.phase, c.severity, c⟩] ∧ (s.raise c).status = .faulted) ∧
  (Severity.isFatal .internal = true ∧ Severity.isFatal .fatal = true ∧ Severity.isFatal .warning = false)

/-! ### Moves, loads and stores (`41_move_memory.md`) -/

/-- R130: `mov` copies a register; nothing else changes. -/
def Obligations.MovCopiesARegister : Prop :=
  (∀ arg : Argument, decodeInstr defaultOpcodeMap ⟨0x00, arg⟩ =
    some (.mov (arg.extractLsb' 0 16) (arg.extractLsb' 16 16))) ∧
  (∀ (s : State) (src dst : RegIdx), s.has [src, dst] →
    ∃ t, exec (.mov src dst) s = .next t ∧ t.reg dst.toNat = s.reg src.toNat ∧ Frame s t [dst.toNat] 0 0)

/-- R131: `imm` loads its 32-bit field unchanged; nothing else changes. -/
def Obligations.ImmLoadsItsField : Prop :=
  (∀ arg : Argument, decodeInstr defaultOpcodeMap ⟨0x01, arg⟩ =
    some (.imm (arg.extractLsb' 0 32) (arg.extractLsb' 32 16))) ∧
  (∀ (s : State) (val : Word) (dst : RegIdx), s.has [dst] →
    ∃ t, exec (.imm val dst) s = .next t ∧ t.reg dst.toNat = val ∧ Frame s t [dst.toNat] 0 0)

/-- R132: `mget` loads the little-endian word at any in-bounds address, and faults at any other. -/
def Obligations.MgetLoadsALittleEndianWord : Prop :=
  (∀ arg : Argument, decodeInstr defaultOpcodeMap ⟨0x02, arg⟩ =
    some (.mget (arg.extractLsb' 0 16) (arg.extractLsb' 16 16))) ∧
  (∀ (s : State) (addr dst : RegIdx) (a : Word), s.has [addr, dst] → s.reg addr.toNat = a →
    (a.toNat + 4 ≤ s.cfg.memCapacity →
      ∃ t, exec (.mget addr dst) s = .next t ∧
        (t.reg dst.toNat).toNat = (s.byte a.toNat).toNat + (s.byte (a.toNat + 1)).toNat * 256 +
          (s.byte (a.toNat + 2)).toNat * 256 ^ 2 + (s.byte (a.toNat + 3)).toNat * 256 ^ 3 ∧
        Frame s t [dst.toNat] 0 0) ∧
    (s.cfg.memCapacity < a.toNat + 4 →
      ∃ t, exec (.mget addr dst) s = .next t ∧ Raises s t (.memoryOutOfBounds a 4)))

/-- R133: `mset` stores a register as four little-endian bytes at any in-bounds address, and faults at any other. -/
def Obligations.MsetStoresALittleEndianWord : Prop :=
  (∀ arg : Argument, decodeInstr defaultOpcodeMap ⟨0x03, arg⟩ =
    some (.mset (arg.extractLsb' 0 16) (arg.extractLsb' 16 16))) ∧
  (∀ (s : State) (addr src : RegIdx) (a : Word), s.has [addr, src] → s.reg addr.toNat = a →
    (a.toNat + 4 ≤ s.cfg.memCapacity →
      ∃ t, exec (.mset addr src) s = .next t ∧
        (∀ k, k < 4 → t.byte (a.toNat + k) = (s.reg src.toNat).extractLsb' (8 * k) 8) ∧
        Frame s t [] a.toNat 4) ∧
    (s.cfg.memCapacity < a.toNat + 4 →
      ∃ t, exec (.mset addr src) s = .next t ∧ Raises s t (.memoryOutOfBounds a 4)))

/-! ### Comparisons and control transfer (`42_compare_control.md`) -/

/-- R140 to R143: each comparison is unsigned and writes its result to bit 0 of `fl`, keeping bits 31:1. -/
def Obligations.ComparisonsWriteTestAlone : Prop :=
  (∀ arg : Argument,
    decodeInstr defaultOpcodeMap ⟨0x04, arg⟩ = some (.teq (arg.extractLsb' 0 16) (arg.extractLsb' 16 16)) ∧
    decodeInstr defaultOpcodeMap ⟨0x05, arg⟩ = some (.tgt (arg.extractLsb' 0 16) (arg.extractLsb' 16 16)) ∧
    decodeInstr defaultOpcodeMap ⟨0x06, arg⟩ = some (.tlt (arg.extractLsb' 0 16) (arg.extractLsb' 16 16))) ∧
  (∀ (s : State) (a b : RegIdx), s.has [a, b] →
    (∃ t, exec (.teq a b) s = .next t ∧ Frame s t [regFl] 0 0 ∧
      t.fl = s.fl &&& 0xFFFFFFFE#32 ||| (if (s.reg a.toNat).toNat = (s.reg b.toNat).toNat then 1#32 else 0#32)) ∧
    (∃ t, exec (.tgt a b) s = .next t ∧ Frame s t [regFl] 0 0 ∧
      t.fl = s.fl &&& 0xFFFFFFFE#32 ||| (if (s.reg a.toNat).toNat > (s.reg b.toNat).toNat then 1#32 else 0#32)) ∧
    (∃ t, exec (.tlt a b) s = .next t ∧ Frame s t [regFl] 0 0 ∧
      t.fl = s.fl &&& 0xFFFFFFFE#32 ||| (if (s.reg a.toNat).toNat < (s.reg b.toNat).toNat then 1#32 else 0#32)))

/-- R144, R145: a conditional jump writes its absolute target to `ip` if TEST is 1, whatever the target, and
changes nothing if TEST is 0. -/
def Obligations.ConditionalJumpsFollowTest : Prop :=
  (∀ arg : Argument,
    decodeInstr defaultOpcodeMap ⟨0x07, arg⟩ = some (.cjmp (arg.extractLsb' 0 32)) ∧
    decodeInstr defaultOpcodeMap ⟨0x08, arg⟩ = some (.cjmpr (arg.extractLsb' 0 16))) ∧
  (∀ (s : State) (target : Word),
    (s.fl.getLsbD 0 = true → ∃ t, exec (.cjmp target) s = .next t ∧ t.ip = target ∧ Frame s t [regIp] 0 0) ∧
    (s.fl.getLsbD 0 = false → exec (.cjmp target) s = .next s)) ∧
  (∀ (s : State) (reg : RegIdx), s.has [reg] →
    (s.fl.getLsbD 0 = true →
      ∃ t, exec (.cjmpr reg) s = .next t ∧ t.ip = s.reg reg.toNat ∧ Frame s t [regIp] 0 0) ∧
    (s.fl.getLsbD 0 = false → exec (.cjmpr reg) s = .next s))

/-- R146 to R148: a call pushes the address after it at the old `sp`, adds 4 to `sp` and goes to its target, read
before the push; with no room on the stack it faults and writes nothing. -/
def Obligations.CallsPushTheReturnAddress : Prop :=
  (∀ arg : Argument,
    decodeInstr defaultOpcodeMap ⟨0x09, arg⟩ = some (.call (arg.extractLsb' 0 32)) ∧
    decodeInstr defaultOpcodeMap ⟨0x0A, arg⟩ = some (.callr (arg.extractLsb' 0 16))) ∧
  (∀ (s : State) (i : Instr) (target : Word),
    (i = .call target ∨ ∃ reg : RegIdx, i = .callr reg ∧ s.has [reg] ∧ target = s.reg reg.toNat) →
    (s.sp.toNat + 4 ≤ s.cfg.memCapacity →
      ∃ t, exec i s = .next t ∧ t.ip = target ∧ t.sp.toNat = (s.sp.toNat + 4) % 2 ^ 32 ∧
        (∀ k, k < 4 → (t.byte (s.sp.toNat + k)).toNat = (s.ip.toNat + 9) % 2 ^ 32 / 256 ^ k % 256) ∧
        Frame s t [regSp, regIp] s.sp.toNat 4) ∧
    (s.cfg.memCapacity < s.sp.toNat + 4 →
      ∃ t, exec i s = .next t ∧ Raises s t (.memoryOutOfBounds s.sp 4)))

/-- R149: a `call` or a `callr`, and then `pop %ip` in any state whose `sp` is as the call left it and whose slot
still holds what the call pushed, resume at the instruction after the call with `sp` as before it. -/
def Obligations.PopIpReturnsFromACall : Prop :=
  ∀ (s t u : State) (i : Instr), ((∃ target, i = .call target) ∨ ∃ reg, i = .callr reg) →
    s.cfg.inRange = true → exec i s = .next t → t.status ≠ .faulted → u.cfg = s.cfg → u.sp = t.sp →
    (∀ k, k < 4 → u.byte (s.sp.toNat + k) = t.byte (s.sp.toNat + k)) →
    ∃ v, exec (.pop 0) u = .next v ∧ v.ip.toNat = (s.ip.toNat + 9) % 2 ^ 32 ∧ v.sp = s.sp ∧
      v.ipWritten = true ∧ ∀ a, v.byte a = u.byte a

/-! ### Bits and shifts (`43_bit_shift.md`) -/

/-- R34: reading and writing one flag bit disturbs no other bit of `fl` and no other register. -/
def Obligations.SetFlagChangesOneBit : Prop :=
  ∀ (s : State) (b : Nat) (v : Bool), b < 32 →
    (∀ c, c < 32 → (s.setFlag b v).getFlag c = if c = b then v else s.getFlag c) ∧
    (∀ r, r ≠ 4 → (s.setFlag b v).reg r = s.reg r) ∧ (∀ c, s.getFlag c = (s.reg 4).getLsbD c)

/-- R160: `sbit` changes exactly bit `idx` of its register, to `v`, and for `idx` of 32 or more nothing. -/
def Obligations.SbitChangesOneBit : Prop :=
  (∀ arg : Argument, decodeInstr defaultOpcodeMap ⟨0x0B, arg⟩ =
    some (.sbit (arg.extractLsb' 0 16) (arg.extractLsb' 16 8) (arg.extractLsb' 24 1))) ∧
  (∀ (s : State) (r : RegIdx) (idx : BitIdx) (v : BitVec 1), s.has [r] →
    (idx.toNat < 32 →
      ∃ t, exec (.sbit r idx v) s = .next t ∧
        (∀ b, b < 32 → (t.reg r.toNat).getLsbD b =
          if b = idx.toNat then v.getLsbD 0 else (s.reg r.toNat).getLsbD b) ∧
        Frame s t [r.toNat] 0 0) ∧
    (32 ≤ idx.toNat → exec (.sbit r idx v) s = .next s))

/-- R161: `gbit` gives 0 or 1, the bit of the source, and 0 for a bit number of 32 or more. -/
def Obligations.GbitReadsOneBit : Prop :=
  (∀ arg : Argument, decodeInstr defaultOpcodeMap ⟨0x0C, arg⟩ =
    some (.gbit (arg.extractLsb' 0 16) (arg.extractLsb' 16 16) (arg.extractLsb' 32 8))) ∧
  (∀ (s : State) (src dst : RegIdx) (idx : BitIdx), s.has [src, dst] →
    ∃ t, exec (.gbit src dst idx) s = .next t ∧
      (t.reg dst.toNat).toNat = (s.reg src.toNat).toNat / 2 ^ idx.toNat % 2 ∧ Frame s t [dst.toNat] 0 0)

/-- R162, R163: shifts are logical, use the whole amount, and so give 0 for any amount of 32 or more. -/
def Obligations.ShiftsAreLogicalAndUnmasked : Prop :=
  (∀ arg : Argument,
    decodeInstr defaultOpcodeMap ⟨0x0D, arg⟩ =
      some (.shr (arg.extractLsb' 0 16) (arg.extractLsb' 16 16) (arg.extractLsb' 32 16)) ∧
    decodeInstr defaultOpcodeMap ⟨0x0E, arg⟩ =
      some (.shl (arg.extractLsb' 0 16) (arg.extractLsb' 16 16) (arg.extractLsb' 32 16))) ∧
  (∀ (s : State) (src dst amt : RegIdx), s.has [src, dst, amt] →
    (∃ t, exec (.shr src dst amt) s = .next t ∧ Frame s t [dst.toNat] 0 0 ∧
      (t.reg dst.toNat).toNat = (s.reg src.toNat).toNat / 2 ^ (s.reg amt.toNat).toNat) ∧
    (∃ t, exec (.shl src dst amt) s = .next t ∧ Frame s t [dst.toNat] 0 0 ∧
      (t.reg dst.toNat).toNat = (s.reg src.toNat).toNat * 2 ^ (s.reg amt.toNat).toNat % 2 ^ 32))

/-! ### Arithmetic (`44_arithmetic.md`) -/

/-- R172, R173: `inc` and `dec` wrap modulo 2^32. -/
def Obligations.IncAndDecWrap : Prop :=
  (∀ arg : Argument,
    decodeInstr defaultOpcodeMap ⟨0x0F, arg⟩ = some (.inc (arg.extractLsb' 0 16)) ∧
    decodeInstr defaultOpcodeMap ⟨0x10, arg⟩ = some (.dec (arg.extractLsb' 0 16))) ∧
  (∀ (s : State) (r : RegIdx), s.has [r] →
    (∃ t, exec (.inc r) s = .next t ∧ Frame s t [r.toNat] 0 0 ∧
      (t.reg r.toNat).toNat = ((s.reg r.toNat).toNat + 1) % 2 ^ 32) ∧
    (∃ t, exec (.dec r) s = .next t ∧ Frame s t [r.toNat] 0 0 ∧
      ((t.reg r.toNat).toNat : Int) = ((s.reg r.toNat).toNat - 1 : Int) % 2 ^ 32))

/-- R174 to R176: sum, difference and product are the exact result modulo 2^32, and no flag is written. -/
def Obligations.AddSubMulWrap : Prop :=
  (∀ arg : Argument,
    decodeInstr defaultOpcodeMap ⟨0x11, arg⟩ =
      some (.uadd (arg.extractLsb' 0 16) (arg.extractLsb' 16 16) (arg.extractLsb' 32 16)) ∧
    decodeInstr defaultOpcodeMap ⟨0x12, arg⟩ =
      some (.usub (arg.extractLsb' 0 16) (arg.extractLsb' 16 16) (arg.extractLsb' 32 16)) ∧
    decodeInstr defaultOpcodeMap ⟨0x13, arg⟩ =
      some (.umul (arg.extractLsb' 0 16) (arg.extractLsb' 16 16) (arg.extractLsb' 32 16))) ∧
  (∀ (s : State) (a b dst : RegIdx), s.has [a, b, dst] →
    (∃ t, exec (.uadd a b dst) s = .next t ∧ Frame s t [dst.toNat] 0 0 ∧
      (t.reg dst.toNat).toNat = ((s.reg a.toNat).toNat + (s.reg b.toNat).toNat) % 2 ^ 32) ∧
    (∃ t, exec (.usub a b dst) s = .next t ∧ Frame s t [dst.toNat] 0 0 ∧
      ((t.reg dst.toNat).toNat : Int) = ((s.reg a.toNat).toNat - (s.reg b.toNat).toNat : Int) % 2 ^ 32) ∧
    (∃ t, exec (.umul a b dst) s = .next t ∧ Frame s t [dst.toNat] 0 0 ∧
      (t.reg dst.toNat).toNat = ((s.reg a.toNat).toNat * (s.reg b.toNat).toNat) % 2 ^ 32))

/-- R171, R177, R178: quotient and remainder are the unsigned ones; a zero divisor raises `DivideByZero` and
leaves the destination alone. -/
def Obligations.DivAndModAreUnsigned : Prop :=
  (∀ arg : Argument,
    decodeInstr defaultOpcodeMap ⟨0x14, arg⟩ =
      some (.udiv (arg.extractLsb' 0 16) (arg.extractLsb' 16 16) (arg.extractLsb' 32 16)) ∧
    decodeInstr defaultOpcodeMap ⟨0x15, arg⟩ =
      some (.umod (arg.extractLsb' 0 16) (arg.extractLsb' 16 16) (arg.extractLsb' 32 16))) ∧
  (∀ (s : State) (a b dst : RegIdx), s.has [a, b, dst] →
    ((s.reg b.toNat).toNat ≠ 0 →
      (∃ t, exec (.udiv a b dst) s = .next t ∧ Frame s t [dst.toNat] 0 0 ∧
        (t.reg dst.toNat).toNat = (s.reg a.toNat).toNat / (s.reg b.toNat).toNat) ∧
      (∃ t, exec (.umod a b dst) s = .next t ∧ Frame s t [dst.toNat] 0 0 ∧
        (t.reg dst.toNat).toNat = (s.reg a.toNat).toNat % (s.reg b.toNat).toNat)) ∧
    ((s.reg b.toNat).toNat = 0 →
      (∃ t, exec (.udiv a b dst) s = .next t ∧ Raises s t .divideByZero) ∧
      (∃ t, exec (.umod a b dst) s = .next t ∧ Raises s t .divideByZero)))

/-! ### The stack (`45_stack.md`) -/

/-- R190: `push` stores the register at the old `sp` and then adds 4 to `sp`; past the end it faults. -/
def Obligations.PushStoresAtSp : Prop :=
  (∀ arg : Argument, decodeInstr defaultOpcodeMap ⟨0x16, arg⟩ = some (.push (arg.extractLsb' 0 16))) ∧
  (∀ (s : State) (r : RegIdx), s.has [r] →
    (s.sp.toNat + 4 ≤ s.cfg.memCapacity →
      ∃ t, exec (.push r) s = .next t ∧ t.sp.toNat = (s.sp.toNat + 4) % 2 ^ 32 ∧
        (∀ k, k < 4 → t.byte (s.sp.toNat + k) = (s.reg r.toNat).extractLsb' (8 * k) 8) ∧
        Frame s t [regSp] s.sp.toNat 4) ∧
    (s.cfg.memCapacity < s.sp.toNat + 4 →
      ∃ t, exec (.push r) s = .next t ∧ Raises s t (.memoryOutOfBounds s.sp 4)))

/-- R191: `pop` subtracts 4 from `sp`, modulo 2^32, and loads the word at the new `sp`; the loaded word wins when
the register is `sp`; out of bounds it faults. -/
def Obligations.PopPreDecrements : Prop :=
  (∀ arg : Argument, decodeInstr defaultOpcodeMap ⟨0x17, arg⟩ = some (.pop (arg.extractLsb' 0 16))) ∧
  (∀ (s : State) (r : RegIdx) (a : Word), s.has [r] → (a.toNat : Int) = ((s.sp.toNat : Int) - 4) % 2 ^ 32 →
    (a.toNat + 4 ≤ s.cfg.memCapacity →
      ∃ t, exec (.pop r) s = .next t ∧
        (t.reg r.toNat).toNat = (s.byte a.toNat).toNat + (s.byte (a.toNat + 1)).toNat * 256 +
          (s.byte (a.toNat + 2)).toNat * 256 ^ 2 + (s.byte (a.toNat + 3)).toNat * 256 ^ 3 ∧
        (r.toNat ≠ 1 → t.sp = a) ∧ Frame s t [regSp, r.toNat] 0 0) ∧
    (s.cfg.memCapacity < a.toNat + 4 →
      ∃ t, exec (.pop r) s = .next t ∧ Raises s t (.memoryOutOfBounds a 4)))

/-- R190, R191, R192 (and `95_test_vectors.md` E4): a push and then a pop, `ip` moving on between them, give the
pushed value and the old `sp`. -/
def Obligations.PushThenPopRoundTrips : Prop :=
  ∀ (s t : State) (a : Word) (r d : RegIdx), s.cfg.inRange = true → s.has [r, d] → 2 ≤ d.toNat →
    exec (.push r) s = .next t → t.status ≠ .faulted →
    ∃ u, exec (.pop d) (t.advance a) = .next u ∧ u.reg d.toNat = s.reg r.toNat ∧ u.sp = s.sp ∧
      ∀ x, u.byte x = t.byte x

/-! ### The data bus (`46_io.md`) -/

/-- R202: `dout` issues one `IoWrite` of the bytes of its buffer to the port in `dbport` and changes nothing else;
a buffer that does not fit faults with no `IoWrite`. -/
def Obligations.DoutWritesItsBuffer : Prop :=
  (∀ arg : Argument, decodeInstr defaultOpcodeMap ⟨0x18, arg⟩ = some (.dout (arg.extractLsb' 0 16))) ∧
  (∀ (s : State) (sizereg : RegIdx) (n : Word), s.has [sizereg] → s.reg sizereg.toNat = n →
    (s.dbdata.toNat + n.toNat ≤ s.cfg.memCapacity →
      ∃ bytes : List Byte, bytes.length = n.toNat ∧
        (∀ k, k < n.toNat → bytes.getD k 0 = s.byte (s.dbdata.toNat + k)) ∧
        exec (.dout sizereg) s = .next { s with ioLog := s.ioLog ++ [.write s.dbport bytes] }) ∧
    (s.cfg.memCapacity < s.dbdata.toNat + n.toNat →
      ∃ t, exec (.dout sizereg) s = .next t ∧ Raises s t (.memoryOutOfBounds s.dbdata n.toNat)))

/-- R203: `din` checks its whole range before the read; given an answer of at most that length it stores the
delivered bytes, and only those, and their count (the list of answers is the model's form of the collaborator, log
entry 5). -/
def Obligations.DinStoresTheDeliveredBytes : Prop :=
  (∀ arg : Argument, decodeInstr defaultOpcodeMap ⟨0x19, arg⟩ =
    some (.din (arg.extractLsb' 0 16) (arg.extractLsb' 16 16))) ∧
  (∀ (s : State) (sizereg recvreg : RegIdx) (n : Word), s.has [sizereg, recvreg] → s.reg sizereg.toNat = n →
    (∀ (answer : List Byte) (later : List (List Byte)), s.dbdata.toNat + n.toNat ≤ s.cfg.memCapacity →
      s.answers = answer :: later → answer.length ≤ n.toNat →
      ∃ t, exec (.din sizereg recvreg) s = .next t ∧ (t.reg recvreg.toNat).toNat = answer.length ∧
        (∀ k, k < answer.length → t.byte (s.dbdata.toNat + k) = answer.getD k 0) ∧
        Frame { s with answers := later, pendingRead := none, ioLog := s.ioLog ++ [.read s.dbport n answer] } t
          [recvreg.toNat] s.dbdata.toNat answer.length) ∧
    (s.cfg.memCapacity < s.dbdata.toNat + n.toNat →
      ∃ t, exec (.din sizereg recvreg) s = .next t ∧ Raises s t (.memoryOutOfBounds s.dbdata n.toNat)))

/-- R204: an answer longer than asked for is an internal fault: the read is on record, no register or byte is
written, and the run ends (the list of answers is log entry 5). -/
def Obligations.OverlongAnswersFault : Prop :=
  ∀ (s : State) (sizereg recvreg : RegIdx) (n : Word) (answer : List Byte) (later : List (List Byte)),
    s.has [sizereg, recvreg] → s.reg sizereg.toNat = n → s.dbdata.toNat + n.toNat ≤ s.cfg.memCapacity →
    s.answers = answer :: later → n.toNat < answer.length →
    ∃ t, exec (.din sizereg recvreg) s = .next t ∧
      Raises { s with answers := later, pendingRead := none, ioLog := s.ioLog ++ [.read s.dbport n answer] } t
        (.ioContractViolation s.dbport n answer.length) ∧
      Cause.severity (.ioContractViolation s.dbport n answer.length) = .internal

/-- R203, R262 (the pending request and the repeated step are the model's, log entries 5 and 6): a `din` with no
answer waits, RUNNING and at its own address, and no number of further steps changes anything. -/
def Obligations.UnansweredDinWaitsForEver : Prop :=
  ∀ (s : State) (sizereg recvreg : RegIdx), s.status = .running → s.cfg.inRange = true →
    s.ip.toNat + 9 ≤ s.cfg.memCapacity → decodeInstr s.cfg.opcodes s.fetch = some (.din sizereg recvreg) →
    s.has [sizereg, recvreg] → s.dbdata.toNat + (s.reg sizereg.toNat).toNat ≤ s.cfg.memCapacity →
    s.answers = [] →
    ∃ t, step s = .next t ∧ t.status = .running ∧ t.pendingRead = some ⟨s.dbport, s.reg sizereg.toNat⟩ ∧
      (∀ r, t.reg r = s.reg r) ∧ (∀ a, t.byte a = s.byte a) ∧ t.ioLog = s.ioLog ∧
      ∀ k, Host.Core.run Sys2Proof.core k t = .next t

/-- R201: a `dout` that completes makes exactly one `IoWrite`, a `din` that completes takes exactly one answer, a
`din` that waits and every other instruction make no transaction, and neither does a faulting one, but for the
internal fault found after the read (answers and the pending read are log entries 5 and 6). -/
def Obligations.OnlyDoutAndDinTouchThePort : Prop :=
  ∀ (i : Instr) (s t : State), s.status ≠ .faulted → exec i s = .next t →
    (i.opcode = .dout → t.status ≠ .faulted →
      ∃ bytes, t.ioLog = s.ioLog ++ [.write s.dbport bytes] ∧ t.answers = s.answers) ∧
    (∀ sizereg recvreg, i = .din sizereg recvreg → t.status ≠ .faulted →
      (∃ answer, s.answers = answer :: t.answers ∧ t.pendingRead = none ∧
        t.ioLog = s.ioLog ++ [.read s.dbport (s.reg sizereg.toNat) answer]) ∨
      (s.answers = [] ∧ t.pendingRead = some ⟨s.dbport, s.reg sizereg.toNat⟩ ∧ t.ioLog = s.ioLog ∧
        t.answers = [])) ∧
    (t.status = .faulted →
      (t.ioLog = s.ioLog ∧ t.answers = s.answers) ∨
      (i.opcode = .din ∧ (∃ f, t.fault = some f ∧ f.cause.code = 7) ∧
        ∃ n answer, s.answers = answer :: t.answers ∧ t.ioLog = s.ioLog ++ [.read s.dbport n answer])) ∧
    (i.opcode ≠ .dout → i.opcode ≠ .din → t.ioLog = s.ioLog ∧ t.answers = s.answers)

/-! ### Memory and frames (`10_state.md`, `20_memory.md`) -/

/-- R53, R54: an access of any width is little-endian, changes no byte outside its range, and reads back the value
stored modulo its width. -/
def Obligations.AccessesAreLittleEndian : Prop :=
  ∀ (m : Memory) (a n v : Nat),
    memRead m a n = ((List.range n).map fun k => (readByte m (a + k)).toNat * 256 ^ k).sum ∧
    (∀ k, k < n → (readByte (memWrite m a n v) (a + k)).toNat = v / 256 ^ k % 256) ∧
    (∀ x, x < a ∨ a + n ≤ x → readByte (memWrite m a n v) x = readByte m x) ∧
    memRead (memWrite m a n v) a n = v % 256 ^ n

/-- R11, R105, R27, R33, R107, R192: whatever an instruction's outcome, a register outside its destination and the
registers that its own rule writes of itself (`sp`, `ip` and `fl`; `writesOf`) keeps its value. A fault writes none
(R224). A `din` that waits writes none (R203, R262; `writesOf` tells it by the empty list of answers, and the state
it leaves is the model's: log entries 5 and 6). -/
def Obligations.OnlyWrittenRegistersChange : Prop :=
  ∀ (i : Instr) (s t : State), exec i s = .next t → ∀ r, r ∉ writesOf i s → t.reg r = s.reg r

/-- R11, R54, R58, R105, R224: whatever an instruction's outcome, a byte outside the range it stores to keeps its
value. A `din` stores within the bytes it asked for (R203), and none while it waits (log entries 5 and 6). -/
def Obligations.OnlyStoredBytesChange : Prop :=
  ∀ (i : Instr) (s t : State), exec i s = .next t →
    ∀ a, a < (storesOf i s).1 ∨ (storesOf i s).1 + (storesOf i s).2 ≤ a → t.byte a = s.byte a

/-- R32, R33: a comparison that changes `fl` keeps bits 31:1, and any other instruction that changes `fl` is one
whose destination operand is `fl`. -/
def Obligations.FlagsChangeOnlyAsListed : Prop :=
  ∀ (i : Instr) (s t : State), exec i s = .next t → t.fl ≠ s.fl →
    if i.opcode = .teq ∨ i.opcode = .tgt ∨ i.opcode = .tlt then ∀ b, 1 ≤ b → t.fl.getLsbD b = s.fl.getLsbD b
    else 4 ∈ writesOf i s ∧ 4#16 ∈ i.regFields

/-- R36, R252: a step changes the status only from RUNNING, to HALTED at a `halt` with no fault recorded, or to
FAULTED with a fault recorded; the fault record and the reports change only on the way to FAULTED. -/
def Obligations.StatusChangesOnlyAsListed : Prop :=
  ∀ s t : State, step s = .next t →
    (t.status = s.status ∧ t.fault = s.fault ∧ t.reports = s.reports) ∨
    (s.status = .running ∧ t.status = .halted ∧ decodeInstr s.cfg.opcodes s.fetch = some .halt ∧
      t.fault = s.fault ∧ t.reports = s.reports) ∨
    (s.status = .running ∧ t.status = .faulted ∧ t.fault.isSome = true)

/-- R20, R250, R256: no step changes the sizes or the opcode map, and no transaction or report is taken back.
R37: no step changes `program_size`, which a load alone latches. The answers still to come are only ever taken from
the front, never added or changed by a step (the list is the model's form of the collaborator, log entry 5). -/
def Obligations.StepsKeepParametersAndHistory : Prop :=
  ∀ s t : State, step s = .next t →
    t.cfg = s.cfg ∧ t.programSize = s.programSize ∧ s.ioLog <+: t.ioLog ∧ s.reports <+: t.reports ∧
    t.answers <:+ s.answers

/-- R37: a load latches `program_size` as 9 times the instruction count and gives it to `sp`; no step reads it, so
changing it changes nothing else a step does. -/
def Obligations.ProgramSizeIsNeverRead : Prop :=
  (∀ (s t : State) (prog : List RawInstr), s.cfg.inRange = true → s.loadProgram prog = .next t →
    t.status = .ready → t.programSize.toNat = 9 * prog.length ∧ t.sp = t.programSize) ∧
  (∀ (s t : State) (p : Word), step s = .next t →
    step { s with programSize := p } = .next { t with programSize := p })

/-! ### Invariants -/

/-- Every step keeps a sound state sound (`State.Inv`): valid parameters, canonical memory and registers within
`MEM_CAPACITY` and `N_REG`, fault record and reports agreeing with the status, a read pending only in RUNNING
(log entry 6). -/
def Obligations.StepsKeepTheInvariant : Prop :=
  ∀ s t : State, s.Inv → step s = .next t → t.Inv

/-- The state after reset is sound, and it is the state that construction gives for rule R7's defaults (that its
MEM_CAPACITY is 2^32 and that no answer has come yet are the model's choices, log entries 2 and 5). -/
def Obligations.ResetIsSound : Prop :=
  State.reset.Inv ∧ construct defaultParams [] = .next State.reset

/-- From a sound state a step always answers a next state: in RUNNING an instruction or its fault gives one (R100,
R224), and so does a `din` that waits (log entry 6); in HALTED and FAULTED the state stays as it is (R110), and in
EMPTY and READY, for which R101 gives no step, it stays so by the model's choice (log entry 8). So the model's own
stop (log entry 15) is never reached from a sound state. -/
def Obligations.SoundStatesAlwaysStep : Prop :=
  ∀ s : State, s.Inv → ∃ t, step s = .next t

/-- Every host command that is not refused keeps a sound state sound, and construction gives one (R250 to R253, R261;
the commands as functions are log entry 18, the list that an answer joins is log entry 5). -/
def Obligations.HostCommandsKeepTheInvariant : Prop :=
  (∀ (p : Params) (oracle : List (List Byte)) (t : State), construct p oracle = .next t → t.Inv) ∧
  (∀ (s t : State) (prog : List RawInstr), s.Inv → s.loadProgram prog = .next t → t.Inv) ∧
  (∀ s t : State, s.Inv → s.startRun = .next t → t.Inv) ∧
  (∀ (s t : State) (answer : List Byte), s.Inv → s.answerRead answer = .next t → t.Inv)

/-! ### Reset, loading and running (`10_state.md`, `70_reset_and_hazards.md`) -/

/-- R40: after construction, with any parameters the host may give, every register and byte is 0, the status is
EMPTY, and there is no fault, no program size and no `ip` write. -/
def Obligations.ConstructionClearsEverything : Prop :=
  ∀ (p : Params) (oracle : List (List Byte)), p.valid = true →
    ∃ s, construct p oracle = .next s ∧ s.cfg = p ∧ (∀ r, s.reg r = 0) ∧ (∀ a, s.byte a = 0) ∧
      s.status = .empty ∧ s.fault = none ∧ s.programSize = 0 ∧ s.ipWritten = false

/-- R41: a load of `k` instructions that fit places instruction `j` at bytes `9j` to `9j + 8`, sets `program_size`
and `sp` to `9k` and `ip` to 0, and leaves every other byte and register alone. -/
def Obligations.LoadPlacesTheProgram : Prop :=
  ∀ (s : State) (prog : List RawInstr), s.cfg.inRange = true → s.status = .empty →
    9 * prog.length ≤ s.cfg.memCapacity →
    ∃ t, s.loadProgram prog = .next t ∧
      (∀ j r, prog[j]? = some r → readBytes t.mem (9 * j) 9 = encodeRaw r) ∧
      (∀ a, 9 * prog.length ≤ a → t.byte a = s.byte a) ∧
      t.programSize.toNat = 9 * prog.length ∧ t.sp.toNat = 9 * prog.length ∧ t.ip = 0 ∧
      (∀ r, r ≠ 0 → r ≠ 1 → t.reg r = s.reg r) ∧ t.status = .ready ∧ t.cfg = s.cfg ∧ t.fault = s.fault ∧
      t.reports = s.reports ∧ t.ioLog = s.ioLog ∧ t.answers = s.answers

/-- R251 (`95_test_vectors.md` L1, L4): a program that does not fit is a preload fault, with nothing written. -/
def Obligations.TooLargeProgramsFault : Prop :=
  ∀ (s : State) (prog : List RawInstr), s.status = .empty → s.cfg.memCapacity < 9 * prog.length →
    ∃ t, s.loadProgram prog = .next t ∧ t.status = .faulted ∧
      t.fault = some ⟨.preload, .fatal, .programTooLarge (9 * prog.length) s.cfg.memCapacity, none⟩ ∧
      t.reports = s.reports ++ [⟨.preload, .fatal, .programTooLarge (9 * prog.length) s.cfg.memCapacity⟩] ∧
      (∀ r, t.reg r = s.reg r) ∧ (∀ a, t.byte a = s.byte a) ∧ t.programSize = s.programSize

/-- R252, R253: `load_program` outside EMPTY and `run` outside READY are refused (the refusal's form is log entry 18);
`run` in READY starts the run and changes nothing else. -/
def Obligations.CommandsFollowTheLifecycle : Prop :=
  (∀ (s : State) (prog : List RawInstr), s.status ≠ .empty → s.loadProgram prog = .refused .loadNotEmpty) ∧
  (∀ s : State, s.status ≠ .ready → s.startRun = .refused .runNotReady) ∧
  (∀ s : State, s.status = .ready → s.startRun = .next { s with status := .running })

/-- R253, R254: on a machine just constructed, loaded and started, the first step runs the first instruction of the
program, fetched at address 0. -/
def Obligations.FirstStepRunsTheFirstInstruction : Prop :=
  ∀ (p : Params) (oracle : List (List Byte)) (r : RawInstr) (rest : List RawInstr) (i : Instr),
    p.valid = true → 9 * (rest.length + 1) ≤ p.memCapacity → decodeInstr p.opcodes r = some i →
    ∃ t u, (State.construct p oracle).loadProgram (r :: rest) = .next t ∧ t.startRun = .next u ∧ u.ip = 0 ∧
      step u =
        match exec i { u with ipWritten := false, pendingRead := none } with
        | .next v => .next (v.advance 0)
        | .fault e => .fault e
        | .refused e => .refused e

/-! ### The end of a wait (`46_io.md`, `70_reset_and_hazards.md`) -/

/-- R100, R203, R204, R261, R262 (the list of answers and the repeated step are the model's, log entries 5 and 6; the
refusal's form is log entry 18): the host's answer joins the answers to come and changes nothing else, and is refused
when no read waits. A `din` that has waited completes in the step after its answer: one read is logged, the
delivered bytes and their count are stored, and the advance follows unless the count went to `ip`; with an answer
longer than asked for, that step is the internal fault, with nothing written. -/
def Obligations.AnAnswerEndsTheWait : Prop :=
  (∀ (s : State) (answer : List Byte),
    (s.pendingRead.isSome = true → s.answerRead answer = .next { s with answers := s.answers ++ [answer] }) ∧
    (s.pendingRead = none → s.answerRead answer = .refused .noPendingRead)) ∧
  (∀ (s : State) (sizereg recvreg : RegIdx) (n : Word) (answer : List Byte),
    s.status = .running → s.cfg.inRange = true → s.ip.toNat + 9 ≤ s.cfg.memCapacity →
    decodeInstr s.cfg.opcodes s.fetch = some (.din sizereg recvreg) → s.has [sizereg, recvreg] →
    s.reg sizereg.toNat = n → s.dbdata.toNat + n.toNat ≤ s.cfg.memCapacity → s.answers = [] →
    ∃ w t u, step s = .next w ∧ w.answerRead answer = .next t ∧ step t = .next u ∧
      u.pendingRead = none ∧ u.answers = [] ∧ u.ioLog = s.ioLog ++ [.read s.dbport n answer] ∧ u.cfg = s.cfg ∧
      u.programSize = s.programSize ∧
      (answer.length ≤ n.toNat →
        u.status = .running ∧ u.fault = s.fault ∧ u.reports = s.reports ∧
        (u.reg recvreg.toNat).toNat = answer.length ∧
        (recvreg.toNat ≠ 0 → u.ip.toNat = (s.ip.toNat + 9) % 2 ^ 32) ∧
        (∀ r, r ≠ 0 → r ≠ recvreg.toNat → u.reg r = s.reg r) ∧
        (∀ k, k < answer.length → u.byte (s.dbdata.toNat + k) = answer.getD k 0) ∧
        (∀ a, a < s.dbdata.toNat ∨ s.dbdata.toNat + answer.length ≤ a → u.byte a = s.byte a)) ∧
      (n.toNat < answer.length →
        Raises { s with ipWritten := false, pendingRead := none, answers := [],
                        ioLog := s.ioLog ++ [.read s.dbport n answer] } u
          (.ioContractViolation s.dbport n answer.length)))
end

