-- ==== Sys2Proof/Laws/Cells.lean ====
section
/-! SUPPORT. The laws of sparse storage: a read after a write, and that writing keeps the canonical form. -/

namespace Sys2Proof.Machine

variable {α : Type} [DecidableEq α] {d : α}

omit [DecidableEq α] in
theorem cellGet_filter_ne (m : List (Nat × α)) (a b : Nat) :
    cellGet d (m.filter fun c => decide (c.1 ≠ a)) b = if b = a then d else cellGet d m b := by
  induction m with
  | nil => simp [cellGet]
  | cons c rest ih =>
    obtain ⟨k, v⟩ := c
    by_cases hk : k = a
    · subst hk
      rw [List.filter_cons_of_neg (by simp), ih]
      by_cases hb : b = k <;> simp [cellGet, hb]
    · rw [List.filter_cons_of_pos (by simpa using hk)]
      simp only [cellGet, ih]
      by_cases hb : b = k
      · subst hb; simp [hk]
      · simp [hb]

omit [DecidableEq α] in
theorem cellGet_cellInsert (m : List (Nat × α)) (a b : Nat) (v : α) (h : ∀ c ∈ m, c.1 ≠ a) :
    cellGet d (cellInsert m a v) b = if b = a then v else cellGet d m b := by
  induction m with
  | nil => simp [cellInsert, cellGet]
  | cons c rest ih =>
    obtain ⟨k, w⟩ := c
    have hk : k ≠ a := h (k, w) (by simp)
    have ih := ih fun c hc => h c (by simp [hc])
    simp only [cellInsert]
    split
    · simp [cellGet]
    · simp only [cellGet, ih]
      by_cases hb : b = k
      · subst hb; simp [hk]
      · simp [hb]

/-- Read after write, on any list of cells. -/
@[simp] theorem cellGet_cellSet (m : List (Nat × α)) (a b : Nat) (v : α) :
    cellGet d (cellSet d m a v) b = if b = a then v else cellGet d m b := by
  simp only [cellSet]
  split
  · next hv => rw [cellGet_filter_ne, hv]
  · rw [cellGet_cellInsert _ _ _ _ (by simp), cellGet_filter_ne]
    by_cases hb : b = a <;> simp [hb]

theorem cellsWf_cons (k : Nat) (v : α) (rest : List (Nat × α)) :
    cellsWf d ((k, v) :: rest) = true ↔ v ≠ d ∧ (∀ c ∈ rest, k < c.1) ∧ cellsWf d rest = true := by
  simp [cellsWf, and_assoc]

theorem cellsWf_filter (p : Nat × α → Bool) (m : List (Nat × α)) (h : cellsWf d m = true) :
    cellsWf d (m.filter p) = true := by
  induction m with
  | nil => simpa using h
  | cons c rest ih =>
    obtain ⟨k, v⟩ := c
    obtain ⟨hv, hlt, hrest⟩ := (cellsWf_cons k v rest).1 h
    rw [List.filter_cons]
    split
    · exact (cellsWf_cons _ _ _).2 ⟨hv, fun c hc => hlt c (List.mem_filter.1 hc).1, ih hrest⟩
    · exact ih hrest

omit [DecidableEq α] in
theorem mem_cellInsert (m : List (Nat × α)) (a : Nat) (v : α) (c : Nat × α) :
    c ∈ cellInsert m a v ↔ c = (a, v) ∨ c ∈ m := by
  induction m with
  | nil => simp [cellInsert]
  | cons e rest ih =>
    obtain ⟨k, w⟩ := e
    simp only [cellInsert]
    split
    · simp
    · simp only [List.mem_cons, ih]; tauto

theorem cellsWf_cellInsert (m : List (Nat × α)) (a : Nat) (v : α) (h : cellsWf d m = true)
    (ha : ∀ c ∈ m, c.1 ≠ a) (hv : v ≠ d) : cellsWf d (cellInsert m a v) = true := by
  induction m with
  | nil => simp [cellInsert, cellsWf, hv]
  | cons e rest ih =>
    obtain ⟨k, w⟩ := e
    obtain ⟨hw, hlt, hrest⟩ := (cellsWf_cons k w rest).1 h
    simp only [cellInsert]
    split
    · next hak =>
      refine (cellsWf_cons _ _ _).2 ⟨hv, ?_, h⟩
      intro c hc
      rcases List.mem_cons.1 hc with rfl | hc
      · exact hak
      · exact hak.trans (hlt c hc)
    · next hak =>
      have hka : k < a := lt_of_le_of_ne (not_lt.1 hak) (ha (k, w) (by simp))
      refine (cellsWf_cons _ _ _).2 ⟨hw, ?_, ih hrest fun c hc => ha c (by simp [hc])⟩
      intro c hc
      rcases (mem_cellInsert rest a v c).1 hc with rfl | hc
      · exact hka
      · exact hlt c hc

/-- Every write keeps the canonical form. -/
theorem cellsWf_cellSet (m : List (Nat × α)) (a : Nat) (v : α) (h : cellsWf d m = true) :
    cellsWf d (cellSet d m a v) = true := by
  simp only [cellSet]
  split
  · exact cellsWf_filter _ m h
  · next hv => exact cellsWf_cellInsert _ a v (cellsWf_filter _ m h) (by simp) hv

/-- In canonical form, equal contents are equal data. -/
theorem cells_ext (m n : List (Nat × α)) (hm : cellsWf d m = true) (hn : cellsWf d n = true)
    (h : ∀ a, cellGet d m a = cellGet d n a) : m = n := by
  have above : ∀ (l : List (Nat × α)) (a : Nat), (∀ c ∈ l, a < c.1) → cellGet d l a = d := by
    intro l a
    induction l with
    | nil => intro _; rfl
    | cons e rest ih =>
      obtain ⟨k, v⟩ := e
      intro hl
      have hk : a ≠ k := (hl (k, v) (by simp)).ne
      simp [cellGet, hk, ih fun c hc => hl c (by simp [hc])]
  induction m generalizing n with
  | nil =>
    cases n with
    | nil => rfl
    | cons e rest =>
      obtain ⟨k, v⟩ := e
      exact absurd (by simpa [cellGet] using (h k).symm) ((cellsWf_cons k v rest).1 hn).1
  | cons e rest ih =>
    obtain ⟨k, v⟩ := e
    obtain ⟨hv, hlt, hrest⟩ := (cellsWf_cons k v rest).1 hm
    cases n with
    | nil => exact absurd (by simpa [cellGet] using h k) hv
    | cons e' rest' =>
      obtain ⟨k', v'⟩ := e'
      obtain ⟨hv', hlt', hrest'⟩ := (cellsWf_cons k' v' rest').1 hn
      have hk : k = k' := by
        rcases lt_trichotomy k k' with hl | he | hl
        · have := above ((k', v') :: rest') k (by
            intro c hc
            rcases List.mem_cons.1 hc with rfl | hc
            · exact hl
            · exact hl.trans (hlt' c hc))
          exact absurd (by have hk := h k; rw [this] at hk; simpa [cellGet] using hk) hv
        · exact he
        · have := above ((k, v) :: rest) k' (by
            intro c hc
            rcases List.mem_cons.1 hc with rfl | hc
            · exact hl
            · exact hl.trans (hlt c hc))
          exact absurd (by have hk := h k'; rw [this] at hk; simpa [cellGet] using hk.symm) hv'
      subst hk
      have hvv : v = v' := by simpa [cellGet] using h k
      subst hvv
      congr 1
      refine ih rest' hrest hrest' fun a => ?_
      by_cases ha : a = k
      · subst ha; rw [above rest a hlt, above rest' a hlt']
      · simpa [cellGet, ha] using h a

end Sys2Proof.Machine
end

