-- ==== Sys2Proof/Laws/Decode.lean ====
section
/-! SUPPORT. Packing and extracting argument fields (`30_encoding.md` rule R74). -/

namespace Sys2Proof

/-- Fields that fit their widths come back from the packed argument. -/
theorem decodeFields_packFields (ws fs : List Nat) (h : List.Forall₂ (fun w f => f < 2 ^ w) ws fs) :
    decodeFields ws (packFields ws fs) = fs := by
  induction h with
  | nil => rfl
  | @cons w f ws fs hf _ ih =>
    rw [packFields, decodeFields, Nat.mod_eq_of_lt hf, Nat.add_mul_mod_self_left, Nat.mod_eq_of_lt hf,
      Nat.add_mul_div_left _ _ (Nat.two_pow_pos w), Nat.div_eq_of_lt hf, Nat.zero_add, ih]

/-- The packed argument fits the sum of the widths. -/
theorem packFields_lt (ws fs : List Nat) : packFields ws fs < 2 ^ ws.sum := by
  induction ws generalizing fs with
  | nil => simp [packFields]
  | cons w ws ih =>
    cases fs with
    | nil => simp [packFields]
    | cons f fs =>
      have h1 := ih fs
      have h2 : f % 2 ^ w < 2 ^ w := Nat.mod_lt _ (Nat.two_pow_pos w)
      rw [packFields, List.sum_cons, pow_add]
      calc f % 2 ^ w + 2 ^ w * packFields ws fs < 2 ^ w + 2 ^ w * packFields ws fs := by omega
        _ = 2 ^ w * (packFields ws fs + 1) := by ring
        _ ≤ 2 ^ w * 2 ^ ws.sum := Nat.mul_le_mul_left _ h1

/-- Every width list of the table fits the 64-bit argument (rule R75). -/
theorem fieldWidths_sum_le (op : Opcode) : (fieldWidths op).sum ≤ 64 := by cases op <;> decide

@[simp] theorem fieldAt_zero (w f : Nat) (fs : List Nat) : fieldAt w (f :: fs) 0 = BitVec.ofNat w f := rfl
@[simp] theorem fieldAt_succ (w f k : Nat) (fs : List Nat) : fieldAt w (f :: fs) (k + 1) = fieldAt w fs k := rfl

end Sys2Proof
end

