-- ==== Sys2Proof/Laws/State.lean ====
section
/-! SUPPORT. One lemma per field per update, so that no later proof unfolds a record update; and reads of
registers and bytes after each update. -/

namespace Sys2Proof.Machine

@[simp] theorem get_eq (s : State) (r : RegIdx) : s.get r = s.reg r.toNat := rfl
@[simp] theorem put_eq (s : State) (r : RegIdx) (v : Word) : s.put r v = s.setReg r.toNat v := rfl

/-! ### setReg -/

@[simp] theorem setReg_cfg (s : State) (r : Nat) (v : Word) : (s.setReg r v).cfg = s.cfg := rfl
@[simp] theorem setReg_mem (s : State) (r : Nat) (v : Word) : (s.setReg r v).mem = s.mem := rfl
@[simp] theorem setReg_status (s : State) (r : Nat) (v : Word) : (s.setReg r v).status = s.status := rfl
@[simp] theorem setReg_fault (s : State) (r : Nat) (v : Word) : (s.setReg r v).fault = s.fault := rfl
@[simp] theorem setReg_programSize (s : State) (r : Nat) (v : Word) : (s.setReg r v).programSize = s.programSize := rfl
@[simp] theorem setReg_pendingRead (s : State) (r : Nat) (v : Word) : (s.setReg r v).pendingRead = s.pendingRead := rfl
@[simp] theorem setReg_answers (s : State) (r : Nat) (v : Word) : (s.setReg r v).answers = s.answers := rfl
@[simp] theorem setReg_ioLog (s : State) (r : Nat) (v : Word) : (s.setReg r v).ioLog = s.ioLog := rfl
@[simp] theorem setReg_reports (s : State) (r : Nat) (v : Word) : (s.setReg r v).reports = s.reports := rfl
@[simp] theorem setReg_ipWritten (s : State) (r : Nat) (v : Word) :
    (s.setReg r v).ipWritten = (s.ipWritten || decide (r = regIp)) := rfl
@[simp] theorem setReg_reg (s : State) (r x : Nat) (v : Word) :
    (s.setReg r v).reg x = if x = r then v else s.reg x := cellGet_cellSet s.regs r x v
@[simp] theorem setReg_byte (s : State) (r : Nat) (v : Word) (x : Nat) : (s.setReg r v).byte x = s.byte x := rfl

/-! ### setWord -/

@[simp] theorem setWord_cfg (s : State) (a : Nat) (v : Word) : (s.setWord a v).cfg = s.cfg := rfl
@[simp] theorem setWord_regs (s : State) (a : Nat) (v : Word) : (s.setWord a v).regs = s.regs := rfl
@[simp] theorem setWord_status (s : State) (a : Nat) (v : Word) : (s.setWord a v).status = s.status := rfl
@[simp] theorem setWord_fault (s : State) (a : Nat) (v : Word) : (s.setWord a v).fault = s.fault := rfl
@[simp] theorem setWord_programSize (s : State) (a : Nat) (v : Word) : (s.setWord a v).programSize = s.programSize := rfl
@[simp] theorem setWord_ipWritten (s : State) (a : Nat) (v : Word) : (s.setWord a v).ipWritten = s.ipWritten := rfl
@[simp] theorem setWord_pendingRead (s : State) (a : Nat) (v : Word) : (s.setWord a v).pendingRead = s.pendingRead := rfl
@[simp] theorem setWord_answers (s : State) (a : Nat) (v : Word) : (s.setWord a v).answers = s.answers := rfl
@[simp] theorem setWord_ioLog (s : State) (a : Nat) (v : Word) : (s.setWord a v).ioLog = s.ioLog := rfl
@[simp] theorem setWord_reports (s : State) (a : Nat) (v : Word) : (s.setWord a v).reports = s.reports := rfl
@[simp] theorem setWord_mem (s : State) (a : Nat) (v : Word) :
    (s.setWord a v).mem = memWrite s.mem a 4 v.toNat := rfl
@[simp] theorem setWord_reg (s : State) (a : Nat) (v : Word) (x : Nat) : (s.setWord a v).reg x = s.reg x := rfl
theorem setWord_byte_outside (s : State) (a x : Nat) (v : Word) (h : x < a ∨ a + 4 ≤ x) :
    (s.setWord a v).byte x = s.byte x := readByte_memWrite_outside s.mem a 4 v.toNat x h

/-! ### setBytes -/

@[simp] theorem setBytes_cfg (s : State) (a : Nat) (bs : List Byte) : (s.setBytes a bs).cfg = s.cfg := rfl
@[simp] theorem setBytes_regs (s : State) (a : Nat) (bs : List Byte) : (s.setBytes a bs).regs = s.regs := rfl
@[simp] theorem setBytes_status (s : State) (a : Nat) (bs : List Byte) : (s.setBytes a bs).status = s.status := rfl
@[simp] theorem setBytes_fault (s : State) (a : Nat) (bs : List Byte) : (s.setBytes a bs).fault = s.fault := rfl
@[simp] theorem setBytes_programSize (s : State) (a : Nat) (bs : List Byte) : (s.setBytes a bs).programSize = s.programSize := rfl
@[simp] theorem setBytes_ipWritten (s : State) (a : Nat) (bs : List Byte) : (s.setBytes a bs).ipWritten = s.ipWritten := rfl
@[simp] theorem setBytes_pendingRead (s : State) (a : Nat) (bs : List Byte) : (s.setBytes a bs).pendingRead = s.pendingRead := rfl
@[simp] theorem setBytes_answers (s : State) (a : Nat) (bs : List Byte) : (s.setBytes a bs).answers = s.answers := rfl
@[simp] theorem setBytes_ioLog (s : State) (a : Nat) (bs : List Byte) : (s.setBytes a bs).ioLog = s.ioLog := rfl
@[simp] theorem setBytes_reports (s : State) (a : Nat) (bs : List Byte) : (s.setBytes a bs).reports = s.reports := rfl
@[simp] theorem setBytes_mem (s : State) (a : Nat) (bs : List Byte) :
    (s.setBytes a bs).mem = writeBytes s.mem a bs := rfl
@[simp] theorem setBytes_reg (s : State) (a : Nat) (bs : List Byte) (x : Nat) : (s.setBytes a bs).reg x = s.reg x := rfl
theorem setBytes_byte_outside (s : State) (a x : Nat) (bs : List Byte) (h : x < a ∨ a + bs.length ≤ x) :
    (s.setBytes a bs).byte x = s.byte x := readByte_writeBytes_outside s.mem a x bs h

/-! ### report -/

@[simp] theorem report_cfg (s : State) (r : Report) : (s.report r).cfg = s.cfg := rfl
@[simp] theorem report_regs (s : State) (r : Report) : (s.report r).regs = s.regs := rfl
@[simp] theorem report_mem (s : State) (r : Report) : (s.report r).mem = s.mem := rfl
@[simp] theorem report_fault (s : State) (r : Report) : (s.report r).fault = s.fault := rfl
@[simp] theorem report_programSize (s : State) (r : Report) : (s.report r).programSize = s.programSize := rfl
@[simp] theorem report_ipWritten (s : State) (r : Report) : (s.report r).ipWritten = s.ipWritten := rfl
@[simp] theorem report_pendingRead (s : State) (r : Report) : (s.report r).pendingRead = s.pendingRead := rfl
@[simp] theorem report_answers (s : State) (r : Report) : (s.report r).answers = s.answers := rfl
@[simp] theorem report_ioLog (s : State) (r : Report) : (s.report r).ioLog = s.ioLog := rfl
@[simp] theorem report_reports (s : State) (r : Report) : (s.report r).reports = s.reports ++ [r] := rfl
@[simp] theorem report_status (s : State) (r : Report) :
    (s.report r).status = if r.severity.isFatal then .faulted else s.status := rfl
@[simp] theorem report_reg (s : State) (r : Report) (x : Nat) : (s.report r).reg x = s.reg x := rfl
@[simp] theorem report_byte (s : State) (r : Report) (x : Nat) : (s.report r).byte x = s.byte x := rfl

/-! ### raise -/

@[simp] theorem raise_cfg (s : State) (c : Cause) : (s.raise c).cfg = s.cfg := rfl
@[simp] theorem raise_regs (s : State) (c : Cause) : (s.raise c).regs = s.regs := rfl
@[simp] theorem raise_mem (s : State) (c : Cause) : (s.raise c).mem = s.mem := rfl
@[simp] theorem raise_programSize (s : State) (c : Cause) : (s.raise c).programSize = s.programSize := rfl
@[simp] theorem raise_ipWritten (s : State) (c : Cause) : (s.raise c).ipWritten = s.ipWritten := rfl
@[simp] theorem raise_pendingRead (s : State) (c : Cause) : (s.raise c).pendingRead = s.pendingRead := rfl
@[simp] theorem raise_answers (s : State) (c : Cause) : (s.raise c).answers = s.answers := rfl
@[simp] theorem raise_ioLog (s : State) (c : Cause) : (s.raise c).ioLog = s.ioLog := rfl
@[simp] theorem raise_reports (s : State) (c : Cause) :
    (s.raise c).reports = s.reports ++ [⟨c.phase, c.severity, c⟩] := rfl
@[simp] theorem raise_fault (s : State) (c : Cause) : (s.raise c).fault = some (faultRecord c s.ip) := rfl
/-- Every cause is fatal or internal, so raising it ends the run (rule R224). -/
@[simp] theorem severity_isFatal (c : Cause) : c.severity.isFatal = true := by cases c <;> rfl
@[simp] theorem raise_status (s : State) (c : Cause) : (s.raise c).status = .faulted := by
  simp [State.raise]
@[simp] theorem raise_reg (s : State) (c : Cause) (x : Nat) : (s.raise c).reg x = s.reg x := rfl
@[simp] theorem raise_byte (s : State) (c : Cause) (x : Nat) : (s.raise c).byte x = s.byte x := rfl

/-! ### ioWrite -/

@[simp] theorem ioWrite_cfg (s : State) (p : Word) (bs : List Byte) : (s.ioWrite p bs).cfg = s.cfg := rfl
@[simp] theorem ioWrite_regs (s : State) (p : Word) (bs : List Byte) : (s.ioWrite p bs).regs = s.regs := rfl
@[simp] theorem ioWrite_mem (s : State) (p : Word) (bs : List Byte) : (s.ioWrite p bs).mem = s.mem := rfl
@[simp] theorem ioWrite_status (s : State) (p : Word) (bs : List Byte) : (s.ioWrite p bs).status = s.status := rfl
@[simp] theorem ioWrite_fault (s : State) (p : Word) (bs : List Byte) : (s.ioWrite p bs).fault = s.fault := rfl
@[simp] theorem ioWrite_programSize (s : State) (p : Word) (bs : List Byte) : (s.ioWrite p bs).programSize = s.programSize := rfl
@[simp] theorem ioWrite_ipWritten (s : State) (p : Word) (bs : List Byte) : (s.ioWrite p bs).ipWritten = s.ipWritten := rfl
@[simp] theorem ioWrite_pendingRead (s : State) (p : Word) (bs : List Byte) : (s.ioWrite p bs).pendingRead = s.pendingRead := rfl
@[simp] theorem ioWrite_answers (s : State) (p : Word) (bs : List Byte) : (s.ioWrite p bs).answers = s.answers := rfl
@[simp] theorem ioWrite_reports (s : State) (p : Word) (bs : List Byte) : (s.ioWrite p bs).reports = s.reports := rfl
@[simp] theorem ioWrite_ioLog (s : State) (p : Word) (bs : List Byte) :
    (s.ioWrite p bs).ioLog = s.ioLog ++ [.write p bs] := rfl
@[simp] theorem ioWrite_reg (s : State) (p : Word) (bs : List Byte) (x : Nat) : (s.ioWrite p bs).reg x = s.reg x := rfl
@[simp] theorem ioWrite_byte (s : State) (p : Word) (bs : List Byte) (x : Nat) : (s.ioWrite p bs).byte x = s.byte x := rfl

/-! ### ioAnswered -/

@[simp] theorem ioAnswered_cfg (s : State) (p n : Word) (b : List Byte) (l : List (List Byte)) : (s.ioAnswered p n b l).cfg = s.cfg := rfl
@[simp] theorem ioAnswered_regs (s : State) (p n : Word) (b : List Byte) (l : List (List Byte)) : (s.ioAnswered p n b l).regs = s.regs := rfl
@[simp] theorem ioAnswered_mem (s : State) (p n : Word) (b : List Byte) (l : List (List Byte)) : (s.ioAnswered p n b l).mem = s.mem := rfl
@[simp] theorem ioAnswered_status (s : State) (p n : Word) (b : List Byte) (l : List (List Byte)) : (s.ioAnswered p n b l).status = s.status := rfl
@[simp] theorem ioAnswered_fault (s : State) (p n : Word) (b : List Byte) (l : List (List Byte)) : (s.ioAnswered p n b l).fault = s.fault := rfl
@[simp] theorem ioAnswered_programSize (s : State) (p n : Word) (b : List Byte) (l : List (List Byte)) : (s.ioAnswered p n b l).programSize = s.programSize := rfl
@[simp] theorem ioAnswered_ipWritten (s : State) (p n : Word) (b : List Byte) (l : List (List Byte)) : (s.ioAnswered p n b l).ipWritten = s.ipWritten := rfl
@[simp] theorem ioAnswered_reports (s : State) (p n : Word) (b : List Byte) (l : List (List Byte)) : (s.ioAnswered p n b l).reports = s.reports := rfl
@[simp] theorem ioAnswered_answers (s : State) (p n : Word) (b : List Byte) (l : List (List Byte)) :
    (s.ioAnswered p n b l).answers = l := rfl
@[simp] theorem ioAnswered_pendingRead (s : State) (p n : Word) (b : List Byte) (l : List (List Byte)) :
    (s.ioAnswered p n b l).pendingRead = none := rfl
@[simp] theorem ioAnswered_ioLog (s : State) (p n : Word) (b : List Byte) (l : List (List Byte)) :
    (s.ioAnswered p n b l).ioLog = s.ioLog ++ [.read p n b] := rfl
@[simp] theorem ioAnswered_reg (s : State) (p n : Word) (b : List Byte) (l : List (List Byte)) (x : Nat) : (s.ioAnswered p n b l).reg x = s.reg x := rfl
@[simp] theorem ioAnswered_byte (s : State) (p n : Word) (b : List Byte) (l : List (List Byte)) (x : Nat) : (s.ioAnswered p n b l).byte x = s.byte x := rfl

/-! ### ioWaits -/

@[simp] theorem ioWaits_cfg (s : State) (p n : Word) : (s.ioWaits p n).cfg = s.cfg := rfl
@[simp] theorem ioWaits_regs (s : State) (p n : Word) : (s.ioWaits p n).regs = s.regs := rfl
@[simp] theorem ioWaits_mem (s : State) (p n : Word) : (s.ioWaits p n).mem = s.mem := rfl
@[simp] theorem ioWaits_status (s : State) (p n : Word) : (s.ioWaits p n).status = s.status := rfl
@[simp] theorem ioWaits_fault (s : State) (p n : Word) : (s.ioWaits p n).fault = s.fault := rfl
@[simp] theorem ioWaits_programSize (s : State) (p n : Word) : (s.ioWaits p n).programSize = s.programSize := rfl
@[simp] theorem ioWaits_ipWritten (s : State) (p n : Word) : (s.ioWaits p n).ipWritten = s.ipWritten := rfl
@[simp] theorem ioWaits_answers (s : State) (p n : Word) : (s.ioWaits p n).answers = s.answers := rfl
@[simp] theorem ioWaits_ioLog (s : State) (p n : Word) : (s.ioWaits p n).ioLog = s.ioLog := rfl
@[simp] theorem ioWaits_reports (s : State) (p n : Word) : (s.ioWaits p n).reports = s.reports := rfl
@[simp] theorem ioWaits_pendingRead (s : State) (p n : Word) :
    (s.ioWaits p n).pendingRead = some ⟨p, n⟩ := rfl
@[simp] theorem ioWaits_reg (s : State) (p n : Word) (x : Nat) : (s.ioWaits p n).reg x = s.reg x := rfl
@[simp] theorem ioWaits_byte (s : State) (p n : Word) (x : Nat) : (s.ioWaits p n).byte x = s.byte x := rfl

/-! ### pushed -/

@[simp] theorem pushed_cfg (s : State) (v : Word) : (s.pushed v).cfg = s.cfg := rfl
@[simp] theorem pushed_status (s : State) (v : Word) : (s.pushed v).status = s.status := rfl
@[simp] theorem pushed_fault (s : State) (v : Word) : (s.pushed v).fault = s.fault := rfl
@[simp] theorem pushed_programSize (s : State) (v : Word) : (s.pushed v).programSize = s.programSize := rfl
@[simp] theorem pushed_pendingRead (s : State) (v : Word) : (s.pushed v).pendingRead = s.pendingRead := rfl
@[simp] theorem pushed_answers (s : State) (v : Word) : (s.pushed v).answers = s.answers := rfl
@[simp] theorem pushed_ioLog (s : State) (v : Word) : (s.pushed v).ioLog = s.ioLog := rfl
@[simp] theorem pushed_reports (s : State) (v : Word) : (s.pushed v).reports = s.reports := rfl
@[simp] theorem pushed_ipWritten (s : State) (v : Word) : (s.pushed v).ipWritten = s.ipWritten := by
  simp [State.pushed, regSp, regIp]
@[simp] theorem pushed_mem (s : State) (v : Word) : (s.pushed v).mem = memWrite s.mem s.sp.toNat 4 v.toNat := rfl
@[simp] theorem pushed_reg (s : State) (v : Word) (x : Nat) :
    (s.pushed v).reg x = if x = regSp then s.sp + 4 else s.reg x := cellGet_cellSet s.regs regSp x _
theorem pushed_byte_outside (s : State) (x : Nat) (v : Word) (h : x < s.sp.toNat ∨ s.sp.toNat + 4 ≤ x) :
    (s.pushed v).byte x = s.byte x := readByte_memWrite_outside s.mem s.sp.toNat 4 v.toNat x h

/-! ### beginStep -/

@[simp] theorem beginStep_cfg (s : State) : s.beginStep.cfg = s.cfg := rfl
@[simp] theorem beginStep_regs (s : State) : s.beginStep.regs = s.regs := rfl
@[simp] theorem beginStep_mem (s : State) : s.beginStep.mem = s.mem := rfl
@[simp] theorem beginStep_status (s : State) : s.beginStep.status = s.status := rfl
@[simp] theorem beginStep_fault (s : State) : s.beginStep.fault = s.fault := rfl
@[simp] theorem beginStep_programSize (s : State) : s.beginStep.programSize = s.programSize := rfl
@[simp] theorem beginStep_answers (s : State) : s.beginStep.answers = s.answers := rfl
@[simp] theorem beginStep_ioLog (s : State) : s.beginStep.ioLog = s.ioLog := rfl
@[simp] theorem beginStep_reports (s : State) : s.beginStep.reports = s.reports := rfl
@[simp] theorem beginStep_ipWritten (s : State) : s.beginStep.ipWritten = false := rfl
@[simp] theorem beginStep_pendingRead (s : State) : s.beginStep.pendingRead = none := rfl
@[simp] theorem beginStep_reg (s : State) (x : Nat) : s.beginStep.reg x = s.reg x := rfl
@[simp] theorem beginStep_byte (s : State) (x : Nat) : s.beginStep.byte x = s.byte x := rfl

end Sys2Proof.Machine
end

