-- ==== Sys2Proof/Laws/Ops.lean ====
section
/-! SUPPORT. What each check and each shared operation can do, said once. -/

namespace Sys2Proof.Machine

@[simp] theorem firstCause_nil : firstCause [] = none := rfl
@[simp] theorem firstCause_some (c : Cause) (cs : List (Option Cause)) : firstCause (some c :: cs) = some c := rfl
@[simp] theorem firstCause_none (cs : List (Option Cause)) : firstCause (none :: cs) = firstCause cs := rfl

theorem firstCause_append (cs ds : List (Option Cause)) :
    firstCause (cs ++ ds) = (firstCause cs).or (firstCause ds) := by
  induction cs with
  | nil => simp
  | cons c cs ih => cases c <;> simp [ih]

theorem firstCause_mem (cs : List (Option Cause)) (c : Cause) (h : firstCause cs = some c) : some c ∈ cs := by
  induction cs with
  | nil => simp at h
  | cons d cs ih =>
    cases d with
    | none => exact List.mem_cons_of_mem _ (ih (by simpa using h))
    | some d => simp_all

/-- A checked operation either raises the first cause that holds, or goes on. -/
theorem checked_cases (s : State) (checks : List (Option Cause)) (rest : Out) :
    (∃ c, firstCause checks = some c ∧ s.checked checks rest = .next (s.raise c)) ∨
    (firstCause checks = none ∧ s.checked checks rest = rest) := by
  unfold State.checked
  cases h : firstCause checks with
  | none => exact .inr ⟨rfl, rfl⟩
  | some c => exact .inl ⟨c, rfl, rfl⟩

theorem checked_none (s : State) {checks : List (Option Cause)} (rest : Out) (h : firstCause checks = none) :
    s.checked checks rest = rest := by rw [State.checked, h]

theorem checked_some (s : State) {checks : List (Option Cause)} (rest : Out) {c : Cause}
    (h : firstCause checks = some c) : s.checked checks rest = .next (s.raise c) := by rw [State.checked, h]

theorem checkReg_ok {s : State} {r : RegIdx} (h : r.toNat < s.cfg.nReg) : s.checkReg r = none := if_pos h

/-- Register fields that exist pass their check (rule R104). -/
theorem checkRegs_ok {s : State} {rs : List RegIdx} (h : s.has rs) (more : List (Option Cause)) :
    firstCause (s.checkRegs rs ++ more) = firstCause more := by
  induction rs with
  | nil => rfl
  | cons r rs ih =>
    rw [State.checkRegs, List.map_cons, checkReg_ok (h r (by simp)), List.cons_append, firstCause_none]
    exact ih fun x hx => h x (by simp [hx])

theorem checkRegs_ok' {s : State} {rs : List RegIdx} (h : s.has rs) : firstCause (s.checkRegs rs) = none := by
  simpa using checkRegs_ok h []

/-- The register fields' check either passes, and they all exist, or names a field that does not. -/
theorem checkRegs_cases (s : State) (rs : List RegIdx) :
    (s.has rs ∧ firstCause (s.checkRegs rs) = none) ∨
    (∃ r ∈ rs, ¬ r.toNat < s.cfg.nReg ∧ firstCause (s.checkRegs rs) = some (.registerOutOfRange r)) := by
  induction rs with
  | nil => exact .inl ⟨fun r hr => absurd hr List.not_mem_nil, rfl⟩
  | cons r rs ih =>
    by_cases hr : r.toNat < s.cfg.nReg
    · rcases ih with ⟨h1, h2⟩ | ⟨x, hx, h1, h2⟩
      · exact .inl ⟨fun y hy => by rcases List.mem_cons.1 hy with rfl | hy; exacts [hr, h1 y hy],
          by simpa [State.checkRegs, checkReg_ok hr] using h2⟩
      · exact .inr ⟨x, by simp [hx], h1, by simpa [State.checkRegs, checkReg_ok hr] using h2⟩
    · exact .inr ⟨r, by simp, hr, by simp [State.checkRegs, State.checkReg, hr]⟩

theorem checkMem_ok {s : State} {a : Word} {n : Nat} (h : a.toNat + n ≤ s.cfg.memCapacity) : s.checkMem a n = none :=
  if_pos h

theorem checkMem_bad {s : State} {a : Word} {n : Nat} (h : s.cfg.memCapacity < a.toNat + n) :
    s.checkMem a n = some (.memoryOutOfBounds a n) := if_neg (by omega)

theorem checkDivisor_ok {d : Word} (h : d ≠ 0) : checkDivisor d = none := if_neg h

/-- What raising a runtime fault does is exactly `Raises` (rule R224). -/
theorem raises_raise (s : State) (c : Cause) (h : c.phase = .runtime) : Raises s (s.raise c) c := by
  refine ⟨raise_status s c, ?_, ?_, fun _ => rfl, fun _ => rfl, rfl, rfl, rfl, rfl, rfl, rfl⟩
  · rw [raise_fault, faultRecord, h]
  · rw [raise_reports, h]

end Sys2Proof.Machine
end

