-- ==== Sys2Proof/Laws/Exec.lean ====
section
/-! SUPPORT. What an execute phase can do, said once: it answers a next state, reached through the named updates
alone. A property that every update keeps is kept by every instruction. -/

namespace Sys2Proof.Machine

/-- The property is kept by every update an execute phase is made of, where the registers and bytes it writes
exist. -/
structure Kept (P : State → Prop) : Prop where
  raise : ∀ s c, P s → s.pendingRead = none → c.phase = .runtime → P (s.raise c)
  setReg : ∀ s r v, P s → r < s.cfg.nReg → P (s.setReg r v)
  setWord : ∀ s a v, P s → a + 4 ≤ s.cfg.memCapacity → P (s.setWord a v)
  setBytes : ∀ s a bs, P s → a + bs.length ≤ s.cfg.memCapacity → P (s.setBytes a bs)
  ioWrite : ∀ s p bs, P s → P (s.ioWrite p bs)
  ioAnswered : ∀ s p n b l, P s → P (s.ioAnswered p n b l)
  ioWaits : ∀ s p n, P s → s.status = .running → P (s.ioWaits p n)
  halt : ∀ s, P s → s.pendingRead = none → P { s with status := .halted }

/-- The answer is a next state for which `P` holds. -/
def Out.Next (P : State → Prop) (o : Out) : Prop := ∃ t, o = .next t ∧ P t

theorem next_pure {P : State → Prop} {t : State} (h : P t) : Out.Next P (.next t) := ⟨t, rfl, h⟩

theorem next_checked {P : State → Prop} (s : State) (checks : List (Option Cause)) (rest : Out)
    (hc : ∀ c, some c ∈ checks → P (s.raise c)) (hr : firstCause checks = none → Out.Next P rest) :
    Out.Next P (s.checked checks rest) := by
  rcases checked_cases s checks rest with ⟨c, hc', h⟩ | ⟨hn, h⟩
  · exact ⟨_, h, hc c (firstCause_mem _ _ hc')⟩
  · rw [h]; exact hr hn

theorem checkReg_phase {s : State} {r : RegIdx} {c : Cause} (h : some c = s.checkReg r) : c.phase = .runtime := by
  unfold State.checkReg at h; split at h <;> simp_all [Cause.phase]

theorem checkRegs_phase {s : State} {rs : List RegIdx} {c : Cause} (h : some c ∈ s.checkRegs rs) :
    c.phase = .runtime := by
  obtain ⟨r, _, hr⟩ := List.mem_map.1 h
  exact checkReg_phase hr.symm

theorem checkMem_phase {s : State} {a : Word} {n : Nat} {c : Cause} (h : some c = s.checkMem a n) :
    c.phase = .runtime := by
  unfold State.checkMem at h; split at h <;> simp_all [Cause.phase]

theorem checkDivisor_phase {d : Word} {c : Cause} (h : some c = checkDivisor d) : c.phase = .runtime := by
  unfold checkDivisor at h; split at h <;> simp_all [Cause.phase]

theorem checkAnswer_phase {p n : Word} {b : List Byte} {c : Cause} (h : some c = checkAnswer p n b) :
    c.phase = .runtime := by
  unfold checkAnswer at h; split at h <;> simp_all [Cause.phase]

/-- The checks of an instruction with register fields `rs` and further checks `more`, all of them runtime ones. -/
theorem next_regs {P : State → Prop} {s : State}
    (hraise : ∀ c, c.phase = .runtime → P (s.raise c)) (rs : List RegIdx) (more : List (Option Cause)) (rest : Out)
    (hm : ∀ c, some c ∈ more → c.phase = .runtime)
    (hr : s.has rs → firstCause more = none → Out.Next P rest) :
    Out.Next P (s.checked (s.checkRegs rs ++ more) rest) := by
  refine next_checked s _ rest (fun c hc => hraise c ?_) (fun hn => ?_)
  · rcases List.mem_append.1 hc with h | h
    exacts [checkRegs_phase h, hm c h]
  · rcases checkRegs_cases s rs with ⟨h1, _⟩ | ⟨r, _, _, h⟩
    · exact hr h1 (by rwa [checkRegs_ok h1] at hn)
    · rw [firstCause_append, h] at hn; simp at hn

theorem next_regs' {P : State → Prop} {s : State}
    (hraise : ∀ c, c.phase = .runtime → P (s.raise c)) (rs : List RegIdx) (rest : Out) (hr : s.has rs → Out.Next P rest) :
    Out.Next P (s.checked (s.checkRegs rs) rest) := by
  simpa using next_regs hraise rs [] rest (by simp) fun h _ => hr h

theorem checkMem_none {s : State} {a : Word} {n : Nat} (h : firstCause [s.checkMem a n] = none) :
    a.toNat + n ≤ s.cfg.memCapacity := by
  unfold State.checkMem at h
  split at h
  · assumption
  · simp at h

/-- Every instruction answers a next state, and keeps every property its updates keep (rule R105). The special
registers must exist (rule R7). -/
theorem exec_keeps {P : State → Prop} (K : Kept P) (i : Instr) (s : State) (hs : P s)
    (h5 : 5 ≤ s.cfg.nReg) (hrun : s.status = .running) (hpend : s.pendingRead = none) :
    Out.Next P (exec i s) := by
  have raise : ∀ c, c.phase = .runtime → P (s.raise c) := fun c hc => K.raise s c hs hpend hc
  have put : ∀ (r : RegIdx) (v : Word), r.toNat < s.cfg.nReg → P (s.put r v) :=
    fun r v hr => K.setReg s _ v hs hr
  have spIx : regSp < s.cfg.nReg := by simp only [regSp]; omega
  have ipIx : regIp < s.cfg.nReg := by simp only [regIp]; omega
  have flIx : regFl < s.cfg.nReg := by simp only [regFl]; omega
  have mem1 : ∀ {a : Word} {n : Nat} (c : Cause), some c ∈ [s.checkMem a n] → c.phase = .runtime :=
    fun c hc => checkMem_phase (List.mem_singleton.1 hc)
  have div1 : ∀ {d : Word} (c : Cause), some c ∈ [checkDivisor d] → c.phase = .runtime :=
    fun c hc => checkDivisor_phase (List.mem_singleton.1 hc)
  have pushed : ∀ v, s.sp.toNat + 4 ≤ s.cfg.memCapacity → P (s.pushed v) :=
    fun v hm => K.setReg (s.setWord s.sp.toNat v) regSp _ (K.setWord s _ v hs hm) spIx
  have jump : ∀ t, P (s.jumpIfTest t) := fun t => by
    unfold State.jumpIfTest; split
    exacts [K.setReg s _ t hs ipIx, hs]
  have cmp : ∀ f a b, Out.Next P (s.compare f a b) := fun f a b =>
    next_regs' raise _ _ fun _ => next_pure (K.setReg s _ _ hs flIx)
  have alu : ∀ f a b d more, (∀ c, some c ∈ more → c.phase = .runtime) → Out.Next P (s.alu f a b d more) :=
    fun f a b d more hm => next_regs raise _ _ _ hm fun h _ => next_pure (put d _ (h d (by simp)))
  cases i with
  | mov src dst => exact next_regs' raise _ _ fun h => next_pure (put dst _ (h dst (by simp)))
  | imm val dst => exact next_regs' raise _ _ fun h => next_pure (put dst _ (h dst (by simp)))
  | mget addr dst => exact next_regs raise _ _ _ mem1 fun h _ => next_pure (put dst _ (h dst (by simp)))
  | mset addr src => exact next_regs raise _ _ _ mem1 fun _ hm => next_pure (K.setWord s _ _ hs (checkMem_none hm))
  | teq a b => rw [exec, execTeq]; exact cmp _ a b
  | tgt a b => rw [exec, execTgt]; exact cmp _ a b
  | tlt a b => rw [exec, execTlt]; exact cmp _ a b
  | cjmp target => exact next_pure (jump target)
  | cjmpr reg => exact next_regs' raise _ _ fun _ => next_pure (jump _)
  | call target =>
    have hc : ∀ c, some c ∈ [s.checkMem s.sp 4] → P (s.raise c) := fun c hc => raise c (mem1 c hc)
    refine next_checked s _ _ hc fun hm => next_pure ?_
    exact K.setReg (s.pushed s.returnAddress) regIp target (pushed _ (checkMem_none hm)) ipIx
  | callr reg =>
    refine next_regs raise _ _ _ mem1 fun _ hm => next_pure ?_
    exact K.setReg (s.pushed s.returnAddress) regIp (s.get reg) (pushed _ (checkMem_none hm)) ipIx
  | sbit r idx v =>
    refine next_regs' raise _ _ fun h => next_pure ?_
    split
    exacts [put r _ (h r (by simp)), hs]
  | gbit src dst idx => exact next_regs' raise _ _ fun h => next_pure (put dst _ (h dst (by simp)))
  | shr src dst amtreg => exact next_regs' raise _ _ fun h => next_pure (put dst _ (h dst (by simp)))
  | shl src dst amtreg => exact next_regs' raise _ _ fun h => next_pure (put dst _ (h dst (by simp)))
  | inc r => exact next_regs' raise _ _ fun h => next_pure (put r _ (h r (by simp)))
  | dec r => exact next_regs' raise _ _ fun h => next_pure (put r _ (h r (by simp)))
  | uadd a b dst => rw [exec, execUadd]; exact alu _ a b dst _ (by simp)
  | usub a b dst => rw [exec, execUsub]; exact alu _ a b dst _ (by simp)
  | umul a b dst => rw [exec, execUmul]; exact alu _ a b dst _ (by simp)
  | udiv a b dst => rw [exec, execUdiv]; exact alu _ a b dst _ div1
  | umod a b dst => rw [exec, execUmod]; exact alu _ a b dst _ div1
  | push r => exact next_regs raise _ _ _ mem1 fun _ hm => next_pure (pushed _ (checkMem_none hm))
  | pop r =>
    refine next_regs raise _ _ _ mem1 fun h _ => next_pure ?_
    exact K.setReg (s.setReg regSp _) _ _ (K.setReg s _ _ hs spIx) (h r (by simp))
  | dout sizereg => exact next_regs raise _ _ _ mem1 fun _ _ => next_pure (K.ioWrite s _ _ hs)
  | din sizereg recvreg =>
    refine next_regs raise _ _ _ mem1 fun h hm => ?_
    unfold State.dinTransfer
    split
    · exact next_pure (K.ioWaits s _ _ hs hrun)
    · next answer later _ =>
      have ht := K.ioAnswered s s.dbport (s.get sizereg) answer later hs
      refine next_checked _ _ _ (fun c hc => K.raise _ c ht rfl (checkAnswer_phase (List.mem_singleton.1 hc))) fun hn => ?_
      have hlen : answer.length ≤ (s.get sizereg).toNat := by
        unfold checkAnswer at hn; split at hn
        · assumption
        · simp at hn
      have hmem := checkMem_none hm
      exact next_pure (K.setReg _ _ _ (K.setBytes _ _ _ ht (by simp only [ioAnswered_cfg]; omega)) (h recvreg (by simp)))
  | halt => exact next_pure (K.halt s hs hpend)

end Sys2Proof.Machine
end

