-- ==== Sys2Proof/Laws/Meanings.lean ====
section
/-! SUPPORT. The next state of each instruction that passes its checks, as one equation over the shared updates, and
what each shared update leaves alone. Proofs cite these and unfold no meaning. -/

namespace Sys2Proof.Machine

/-! ### Frames of the shared updates -/

theorem frame_refl (s : State) : Frame s s [] 0 0 :=
  ⟨fun _ _ => rfl, fun _ _ => rfl, by simp, rfl, rfl, rfl, rfl, rfl, rfl, rfl, rfl⟩

theorem frame_setReg (s : State) (r : Nat) (v : Word) : Frame s (s.setReg r v) [r] 0 0 := by
  refine ⟨fun x hx => ?_, fun _ _ => rfl, ?_, rfl, rfl, rfl, rfl, rfl, rfl, rfl, rfl⟩
  · rw [setReg_reg, if_neg (by simpa using hx)]
  · simp [eq_comm]

theorem frame_setWord (s : State) (a : Nat) (v : Word) : Frame s (s.setWord a v) [] a 4 :=
  ⟨fun _ _ => rfl, fun x hx => setWord_byte_outside s a x v hx, by simp, rfl, rfl, rfl, rfl, rfl, rfl, rfl, rfl⟩

theorem frame_setBytes (s : State) (a : Nat) (bs : List Byte) : Frame s (s.setBytes a bs) [] a bs.length :=
  ⟨fun _ _ => rfl, fun x hx => setBytes_byte_outside s a x bs hx, by simp, rfl, rfl, rfl, rfl, rfl, rfl, rfl, rfl⟩

/-- A register write after an update adds its register to the frame. -/
theorem frame_then_setReg {s t : State} {regs : List Nat} {lo n : Nat} (h : Frame s t regs lo n) (r : Nat) (v : Word) :
    Frame s (t.setReg r v) (regs ++ [r]) lo n := by
  obtain ⟨hr, hb, hw, h1, h2, h3, h4, h5, h6, h7, h8⟩ := h
  refine ⟨fun x hx => ?_, hb, ?_, h1, h2, h3, h4, h5, h6, h7, h8⟩
  · have hx1 : x ∉ regs := fun h => hx (by simp [h])
    have hx2 : x ≠ r := fun h => hx (by simp [h])
    rw [setReg_reg, if_neg hx2, hr x hx1]
  · rw [setReg_ipWritten, hw, Bool.or_assoc]
    congr 1
    simp [eq_comm]

theorem frame_pushed (s : State) (v : Word) : Frame s (s.pushed v) [regSp] s.sp.toNat 4 :=
  frame_then_setReg (frame_setWord s s.sp.toNat v) regSp _

/-! ### Next states -/

section
variable {s : State}

theorem exec_mov {src dst : RegIdx} (h : s.has [src, dst]) :
    exec (.mov src dst) s = .next (s.setReg dst.toNat (s.reg src.toNat)) := checked_none s _ (checkRegs_ok' h)

theorem exec_imm {val : Word} {dst : RegIdx} (h : s.has [dst]) :
    exec (.imm val dst) s = .next (s.setReg dst.toNat val) := checked_none s _ (checkRegs_ok' h)

theorem exec_mget {addr dst : RegIdx} (h : s.has [addr, dst])
    (hm : (s.reg addr.toNat).toNat + 4 ≤ s.cfg.memCapacity) :
    exec (.mget addr dst) s = .next (s.setReg dst.toNat (s.word (s.reg addr.toNat).toNat)) :=
  checked_none s _ (by rw [checkRegs_ok h, get_eq, checkMem_ok hm]; rfl)

theorem exec_mset {addr src : RegIdx} (h : s.has [addr, src])
    (hm : (s.reg addr.toNat).toNat + 4 ≤ s.cfg.memCapacity) :
    exec (.mset addr src) s = .next (s.setWord (s.reg addr.toNat).toNat (s.reg src.toNat)) :=
  checked_none s _ (by rw [checkRegs_ok h, get_eq, checkMem_ok hm]; rfl)

theorem exec_teq {a b : RegIdx} (h : s.has [a, b]) :
    exec (.teq a b) s = .next (s.setFlag testBit (decide (s.reg a.toNat = s.reg b.toNat))) :=
  checked_none s _ (checkRegs_ok' h)

theorem exec_tgt {a b : RegIdx} (h : s.has [a, b]) :
    exec (.tgt a b) s = .next (s.setFlag testBit (decide ((s.reg b.toNat).toNat < (s.reg a.toNat).toNat))) :=
  checked_none s _ (checkRegs_ok' h)

theorem exec_tlt {a b : RegIdx} (h : s.has [a, b]) :
    exec (.tlt a b) s = .next (s.setFlag testBit (decide ((s.reg a.toNat).toNat < (s.reg b.toNat).toNat))) :=
  checked_none s _ (checkRegs_ok' h)

theorem exec_cjmp (target : Word) : exec (.cjmp target) s = .next (s.jumpIfTest target) := rfl

theorem exec_cjmpr {reg : RegIdx} (h : s.has [reg]) :
    exec (.cjmpr reg) s = .next (s.jumpIfTest (s.reg reg.toNat)) := checked_none s _ (checkRegs_ok' h)

theorem exec_call {target : Word} (hm : s.sp.toNat + 4 ≤ s.cfg.memCapacity) :
    exec (.call target) s = .next ((s.pushed s.returnAddress).setReg regIp target) :=
  checked_none s _ (by rw [checkMem_ok hm]; rfl)

theorem exec_callr {reg : RegIdx} (h : s.has [reg]) (hm : s.sp.toNat + 4 ≤ s.cfg.memCapacity) :
    exec (.callr reg) s = .next ((s.pushed s.returnAddress).setReg regIp (s.reg reg.toNat)) :=
  checked_none s _ (by rw [checkRegs_ok h, checkMem_ok hm]; rfl)

theorem exec_sbit {r : RegIdx} {idx : BitIdx} {v : BitVec 1} (h : s.has [r]) :
    exec (.sbit r idx v) s =
      .next (if idx.toNat < 32 then s.setReg r.toNat (setBit (s.reg r.toNat) idx.toNat (decide (v = 1#1))) else s) :=
  checked_none s _ (checkRegs_ok' h)

theorem exec_gbit {src dst : RegIdx} {idx : BitIdx} (h : s.has [src, dst]) :
    exec (.gbit src dst idx) s =
      .next (s.setReg dst.toNat ((BitVec.ofBool ((s.reg src.toNat).getLsbD idx.toNat)).zeroExtend 32)) :=
  checked_none s _ (checkRegs_ok' h)

theorem exec_shr {src dst amtreg : RegIdx} (h : s.has [src, dst, amtreg]) :
    exec (.shr src dst amtreg) s = .next (s.setReg dst.toNat (shiftRight (s.reg src.toNat) (s.reg amtreg.toNat))) :=
  checked_none s _ (checkRegs_ok' h)

theorem exec_shl {src dst amtreg : RegIdx} (h : s.has [src, dst, amtreg]) :
    exec (.shl src dst amtreg) s = .next (s.setReg dst.toNat (shiftLeft (s.reg src.toNat) (s.reg amtreg.toNat))) :=
  checked_none s _ (checkRegs_ok' h)

theorem exec_inc {r : RegIdx} (h : s.has [r]) :
    exec (.inc r) s = .next (s.setReg r.toNat (s.reg r.toNat + 1)) := checked_none s _ (checkRegs_ok' h)

theorem exec_dec {r : RegIdx} (h : s.has [r]) :
    exec (.dec r) s = .next (s.setReg r.toNat (s.reg r.toNat - 1)) := checked_none s _ (checkRegs_ok' h)

/-- The shared operation of the three-register arithmetic. -/
theorem alu_next {op : Word → Word → Word} {a b dst : RegIdx} {extra : List (Option Cause)} (h : s.has [a, b, dst])
    (he : firstCause extra = none) :
    s.alu op a b dst extra = .next (s.setReg dst.toNat (op (s.reg a.toNat) (s.reg b.toNat))) :=
  checked_none s _ (by rw [checkRegs_ok h, he])

theorem exec_uadd {a b dst : RegIdx} (h : s.has [a, b, dst]) :
    exec (.uadd a b dst) s = .next (s.setReg dst.toNat (s.reg a.toNat + s.reg b.toNat)) := by
  rw [exec, execUadd, alu_next h rfl]

theorem exec_usub {a b dst : RegIdx} (h : s.has [a, b, dst]) :
    exec (.usub a b dst) s = .next (s.setReg dst.toNat (s.reg a.toNat - s.reg b.toNat)) := by
  rw [exec, execUsub, alu_next h rfl]

theorem exec_umul {a b dst : RegIdx} (h : s.has [a, b, dst]) :
    exec (.umul a b dst) s = .next (s.setReg dst.toNat (s.reg a.toNat * s.reg b.toNat)) := by
  rw [exec, execUmul, alu_next h rfl]

theorem exec_udiv {a b dst : RegIdx} (h : s.has [a, b, dst]) (hd : s.reg b.toNat ≠ 0) :
    exec (.udiv a b dst) s = .next (s.setReg dst.toNat (s.reg a.toNat / s.reg b.toNat)) := by
  rw [exec, execUdiv, get_eq, checkDivisor_ok hd, alu_next h rfl]

theorem exec_umod {a b dst : RegIdx} (h : s.has [a, b, dst]) (hd : s.reg b.toNat ≠ 0) :
    exec (.umod a b dst) s = .next (s.setReg dst.toNat (s.reg a.toNat % s.reg b.toNat)) := by
  rw [exec, execUmod, get_eq, checkDivisor_ok hd, alu_next h rfl]

theorem exec_push {r : RegIdx} (h : s.has [r]) (hm : s.sp.toNat + 4 ≤ s.cfg.memCapacity) :
    exec (.push r) s = .next (s.pushed (s.reg r.toNat)) :=
  checked_none s _ (by rw [checkRegs_ok h, checkMem_ok hm]; rfl)

theorem exec_pop {r : RegIdx} (h : s.has [r]) (hm : s.popSlot.toNat + 4 ≤ s.cfg.memCapacity) :
    exec (.pop r) s = .next ((s.setReg regSp s.popSlot).setReg r.toNat (s.word s.popSlot.toNat)) :=
  checked_none s _ (by rw [checkRegs_ok h, checkMem_ok hm]; rfl)

theorem exec_dout {sizereg : RegIdx} (h : s.has [sizereg])
    (hm : s.dbdata.toNat + (s.reg sizereg.toNat).toNat ≤ s.cfg.memCapacity) :
    exec (.dout sizereg) s =
      .next (s.ioWrite s.dbport (readBytes s.mem s.dbdata.toNat (s.reg sizereg.toNat).toNat)) :=
  checked_none s _ (by rw [checkRegs_ok h, get_eq, checkMem_ok hm]; rfl)

theorem exec_din {sizereg recvreg : RegIdx} (h : s.has [sizereg, recvreg])
    (hm : s.dbdata.toNat + (s.reg sizereg.toNat).toNat ≤ s.cfg.memCapacity) :
    exec (.din sizereg recvreg) s = s.dinTransfer (s.reg sizereg.toNat) recvreg :=
  checked_none s _ (by rw [checkRegs_ok h, get_eq, checkMem_ok hm]; rfl)

theorem exec_halt : exec .halt s = .next { s with status := .halted } := rfl

/-- `din` with no answer waits. -/
theorem dinTransfer_waits {n : Word} {recvreg : RegIdx} (h : s.answers = []) :
    s.dinTransfer n recvreg = .next (s.ioWaits s.dbport n) := by rw [State.dinTransfer, h]

/-- `din` with an answer that keeps the collaborator's contract. -/
theorem dinTransfer_stores {n : Word} {recvreg : RegIdx} {answer : List Byte} {later : List (List Byte)}
    (h : s.answers = answer :: later) (hk : answer.length ≤ n.toNat) :
    s.dinTransfer n recvreg =
      .next (((s.ioAnswered s.dbport n answer later).setBytes s.dbdata.toNat answer).setReg recvreg.toNat
        (BitVec.ofNat 32 answer.length)) := by
  rw [State.dinTransfer, h]
  exact checked_none _ _ (by rw [checkAnswer, if_pos hk]; rfl)

/-- `din` with an answer that breaks it. -/
theorem dinTransfer_faults {n : Word} {recvreg : RegIdx} {answer : List Byte} {later : List (List Byte)}
    (h : s.answers = answer :: later) (hk : n.toNat < answer.length) :
    s.dinTransfer n recvreg =
      .next ((s.ioAnswered s.dbport n answer later).raise (.ioContractViolation s.dbport n answer.length)) := by
  rw [State.dinTransfer, h]
  exact checked_some _ _ (by rw [checkAnswer, if_neg (by omega)]; rfl)

end

/-! ### Inversion: the three ways an execute phase can end -/

/-- The state an instruction leaves when every check passes. -/
def effect (i : Instr) (s : State) : State :=
  match i with
  | .mov src dst => s.setReg dst.toNat (s.reg src.toNat)
  | .imm val dst => s.setReg dst.toNat val
  | .mget addr dst => s.setReg dst.toNat (s.word (s.reg addr.toNat).toNat)
  | .mset addr src => s.setWord (s.reg addr.toNat).toNat (s.reg src.toNat)
  | .teq a b => s.setFlag testBit (decide (s.reg a.toNat = s.reg b.toNat))
  | .tgt a b => s.setFlag testBit (decide ((s.reg b.toNat).toNat < (s.reg a.toNat).toNat))
  | .tlt a b => s.setFlag testBit (decide ((s.reg a.toNat).toNat < (s.reg b.toNat).toNat))
  | .cjmp target => s.jumpIfTest target
  | .cjmpr reg => s.jumpIfTest (s.reg reg.toNat)
  | .call target => (s.pushed s.returnAddress).setReg regIp target
  | .callr reg => (s.pushed s.returnAddress).setReg regIp (s.reg reg.toNat)
  | .sbit r idx v =>
    if idx.toNat < 32 then s.setReg r.toNat (setBit (s.reg r.toNat) idx.toNat (decide (v = 1#1))) else s
  | .gbit src dst idx =>
    s.setReg dst.toNat ((BitVec.ofBool ((s.reg src.toNat).getLsbD idx.toNat)).zeroExtend 32)
  | .shr src dst amtreg => s.setReg dst.toNat (shiftRight (s.reg src.toNat) (s.reg amtreg.toNat))
  | .shl src dst amtreg => s.setReg dst.toNat (shiftLeft (s.reg src.toNat) (s.reg amtreg.toNat))
  | .inc r => s.setReg r.toNat (s.reg r.toNat + 1)
  | .dec r => s.setReg r.toNat (s.reg r.toNat - 1)
  | .uadd a b dst => s.setReg dst.toNat (s.reg a.toNat + s.reg b.toNat)
  | .usub a b dst => s.setReg dst.toNat (s.reg a.toNat - s.reg b.toNat)
  | .umul a b dst => s.setReg dst.toNat (s.reg a.toNat * s.reg b.toNat)
  | .udiv a b dst => s.setReg dst.toNat (s.reg a.toNat / s.reg b.toNat)
  | .umod a b dst => s.setReg dst.toNat (s.reg a.toNat % s.reg b.toNat)
  | .push r => s.pushed (s.reg r.toNat)
  | .pop r => (s.setReg regSp s.popSlot).setReg r.toNat (s.word s.popSlot.toNat)
  | .dout sizereg => s.ioWrite s.dbport (readBytes s.mem s.dbdata.toNat (s.reg sizereg.toNat).toNat)
  | .din sizereg recvreg =>
    match s.answers with
    | [] => s.ioWaits s.dbport (s.reg sizereg.toNat)
    | answer :: later =>
      ((s.ioAnswered s.dbport (s.reg sizereg.toNat) answer later).setBytes s.dbdata.toNat answer).setReg
        recvreg.toNat (BitVec.ofNat 32 answer.length)
  | .halt => { s with status := .halted }

/-- How an execute phase that answers `t` has ended: one of its checks raised; or the collaborator broke its
contract (`din`); or it completed. -/
def Ended (i : Instr) (s t : State) : Prop :=
  (∃ c, t = s.raise c ∧ c.phase = .runtime ∧ c.code ∈ raisable i.opcode ∧ c.code ≠ 7) ∨
  (∃ sizereg recvreg answer later, i = .din sizereg recvreg ∧ s.answers = answer :: later ∧
    (s.reg sizereg.toNat).toNat < answer.length ∧
    t = (s.ioAnswered s.dbport (s.reg sizereg.toNat) answer later).raise
      (.ioContractViolation s.dbport (s.reg sizereg.toNat) answer.length)) ∨
  (t = effect i s ∧ s.has i.regFields ∧
    ∀ sizereg recvreg, i = .din sizereg recvreg → ∀ answer ∈ s.answers.head?, answer.length ≤ (s.reg sizereg.toNat).toNat)

theorem checkReg_code {s : State} {r : RegIdx} {c : Cause} (h : s.checkReg r = some c) :
    c.phase = .runtime ∧ c.code = 4 := by
  unfold State.checkReg at h; split at h
  · cases h
  · cases h; exact ⟨rfl, rfl⟩

theorem checkMem_code {s : State} {a : Word} {n : Nat} {c : Cause} (h : s.checkMem a n = some c) :
    c.phase = .runtime ∧ c.code = 5 := by
  unfold State.checkMem at h; split at h
  · cases h
  · cases h; exact ⟨rfl, rfl⟩

theorem checkDivisor_code {d : Word} {c : Cause} (h : checkDivisor d = some c) :
    c.phase = .runtime ∧ c.code = 6 := by
  unfold checkDivisor at h; split at h
  · cases h; exact ⟨rfl, rfl⟩
  · cases h

/-- Register checks and then `more`: either one raises, a register check with code 4, or all pass. -/
theorem checkedRegs_next {s t : State} {rs : List RegIdx} {more : List (Option Cause)} {rest : Out}
    (h : s.checked (s.checkRegs rs ++ more) rest = .next t) :
    (∃ c, t = s.raise c ∧ ((c.phase = .runtime ∧ c.code = 4 ∧ rs ≠ []) ∨ some c ∈ more)) ∨
    (s.has rs ∧ rest = .next t) := by
  rcases checked_cases s (s.checkRegs rs ++ more) rest with ⟨c, hc, e⟩ | ⟨hn, e⟩
  · rw [e] at h
    refine .inl ⟨c, by simpa using h.symm, ?_⟩
    rcases List.mem_append.1 (firstCause_mem _ _ hc) with hm | hm
    · obtain ⟨r, hr, hrc⟩ := List.mem_map.1 hm
      obtain ⟨h1, h2⟩ := checkReg_code hrc
      exact .inl ⟨h1, h2, List.ne_nil_of_mem hr⟩
    · exact .inr hm
  · rw [e] at h
    rcases checkRegs_cases s rs with ⟨h1, _⟩ | ⟨r, _, _, h2⟩
    · exact .inr ⟨h1, h⟩
    · rw [firstCause_append, h2] at hn; simp at hn

theorem ended_regs {i : Instr} {s t : State} (hi : ∀ sizereg recvreg, i ≠ .din sizereg recvreg)
    (he : s.checked (s.checkRegs i.regFields) (.next (effect i s)) = .next t)
    (h4 : i.regFields ≠ [] → 4 ∈ raisable i.opcode) : Ended i s t := by
  rw [← List.append_nil (s.checkRegs i.regFields)] at he
  rcases checkedRegs_next he with ⟨c, ht, ⟨h1, h2, h3⟩ | hm⟩ | ⟨h1, h2⟩
  · exact .inl ⟨c, ht, h1, h2 ▸ h4 h3, by omega⟩
  · simp at hm
  · exact .inr (.inr ⟨by simpa using h2.symm, h1, fun z r e => absurd e (hi z r)⟩)

theorem ended_mem {i : Instr} {s t : State} {a : Word} {n : Nat} (hi : ∀ sizereg recvreg, i ≠ .din sizereg recvreg)
    (he : s.checked (s.checkRegs i.regFields ++ [s.checkMem a n]) (.next (effect i s)) = .next t)
    (h4 : i.regFields ≠ [] → 4 ∈ raisable i.opcode) (h5 : 5 ∈ raisable i.opcode) : Ended i s t := by
  rcases checkedRegs_next he with ⟨c, ht, ⟨h1, h2, h3⟩ | hm⟩ | ⟨h1, h2⟩
  · exact .inl ⟨c, ht, h1, h2 ▸ h4 h3, by omega⟩
  · obtain ⟨h1, h2⟩ := checkMem_code (List.mem_singleton.1 hm).symm
    exact .inl ⟨c, ht, h1, h2 ▸ h5, by omega⟩
  · exact .inr (.inr ⟨by simpa using h2.symm, h1, fun z r e => absurd e (hi z r)⟩)

theorem ended_div {i : Instr} {s t : State} {d : Word} (hi : ∀ sizereg recvreg, i ≠ .din sizereg recvreg)
    (he : s.checked (s.checkRegs i.regFields ++ [checkDivisor d]) (.next (effect i s)) = .next t)
    (h4 : 4 ∈ raisable i.opcode) (h6 : 6 ∈ raisable i.opcode) : Ended i s t := by
  rcases checkedRegs_next he with ⟨c, ht, ⟨h1, h2, h3⟩ | hm⟩ | ⟨h1, h2⟩
  · exact .inl ⟨c, ht, h1, h2 ▸ h4, by omega⟩
  · obtain ⟨h1, h2⟩ := checkDivisor_code (List.mem_singleton.1 hm).symm
    exact .inl ⟨c, ht, h1, h2 ▸ h6, by omega⟩
  · exact .inr (.inr ⟨by simpa using h2.symm, h1, fun z r e => absurd e (hi z r)⟩)

/-- Everything an execute phase can do (rules R104, R105, R223). -/
theorem exec_ended {i : Instr} {s t : State} (h : exec i s = .next t) : Ended i s t := by
  cases i with
  | mov src dst => exact ended_regs (by simp) h (by simp [raisable, Instr.opcode])
  | imm val dst => exact ended_regs (by simp) h (by simp [raisable, Instr.opcode])
  | mget addr dst => exact ended_mem (by simp) h (by simp [raisable, Instr.opcode]) (by simp [raisable, Instr.opcode])
  | mset addr src => exact ended_mem (by simp) h (by simp [raisable, Instr.opcode]) (by simp [raisable, Instr.opcode])
  | teq a b => exact ended_regs (by simp) h (by simp [raisable, Instr.opcode])
  | tgt a b => exact ended_regs (by simp) h (by simp [raisable, Instr.opcode])
  | tlt a b => exact ended_regs (by simp) h (by simp [raisable, Instr.opcode])
  | cjmp target => exact ended_regs (by simp) h (by simp [Instr.regFields])
  | cjmpr reg => exact ended_regs (by simp) h (by simp [raisable, Instr.opcode])
  | call target => exact ended_mem (by simp) h (by simp [Instr.regFields]) (by simp [raisable, Instr.opcode])
  | callr reg => exact ended_mem (by simp) h (by simp [raisable, Instr.opcode]) (by simp [raisable, Instr.opcode])
  | sbit r idx v => exact ended_regs (by simp) h (by simp [raisable, Instr.opcode])
  | gbit src dst idx => exact ended_regs (by simp) h (by simp [raisable, Instr.opcode])
  | shr src dst amtreg => exact ended_regs (by simp) h (by simp [raisable, Instr.opcode])
  | shl src dst amtreg => exact ended_regs (by simp) h (by simp [raisable, Instr.opcode])
  | inc r => exact ended_regs (by simp) h (by simp [raisable, Instr.opcode])
  | dec r => exact ended_regs (by simp) h (by simp [raisable, Instr.opcode])
  | uadd a b dst => exact ended_regs (by simp) h (by simp [raisable, Instr.opcode])
  | usub a b dst => exact ended_regs (by simp) h (by simp [raisable, Instr.opcode])
  | umul a b dst => exact ended_regs (by simp) h (by simp [raisable, Instr.opcode])
  | udiv a b dst => exact ended_div (by simp) h (by simp [raisable, Instr.opcode]) (by simp [raisable, Instr.opcode])
  | umod a b dst => exact ended_div (by simp) h (by simp [raisable, Instr.opcode]) (by simp [raisable, Instr.opcode])
  | push r => exact ended_mem (by simp) h (by simp [raisable, Instr.opcode]) (by simp [raisable, Instr.opcode])
  | pop r => exact ended_mem (by simp) h (by simp [raisable, Instr.opcode]) (by simp [raisable, Instr.opcode])
  | dout sizereg => exact ended_mem (by simp) h (by simp [raisable, Instr.opcode]) (by simp [raisable, Instr.opcode])
  | halt => exact ended_regs (by simp) h (by simp [Instr.regFields])
  | din sizereg recvreg =>
    rcases checkedRegs_next h with ⟨c, ht, ⟨h1, h2, _⟩ | hm⟩ | ⟨h1, h2⟩
    · exact .inl ⟨c, ht, h1, by simp [h2, raisable, Instr.opcode], by omega⟩
    · obtain ⟨h1, h2⟩ := checkMem_code (List.mem_singleton.1 hm).symm
      exact .inl ⟨c, ht, h1, by simp [h2, raisable, Instr.opcode], by omega⟩
    · rw [get_eq] at h2
      cases ha : s.answers with
      | nil =>
        rw [dinTransfer_waits ha] at h2
        refine .inr (.inr ⟨by simp only [effect, ha]; simpa using h2.symm, h1, fun z r _ => by simp [ha]⟩)
      | cons answer later =>
        by_cases hk : answer.length ≤ (s.reg sizereg.toNat).toNat
        · rw [dinTransfer_stores ha hk] at h2
          refine .inr (.inr ⟨by simp only [effect, ha]; simpa using h2.symm, h1, fun z r e => ?_⟩)
          cases e; simpa [ha] using hk
        · rw [dinTransfer_faults ha (by simpa using hk)] at h2
          exact .inr (.inl ⟨sizereg, recvreg, answer, later, rfl, ha, by omega, by simpa using h2.symm⟩)

/-- What the completed effect of any instruction leaves alone: parameters, fault record, reports and `program_size`,
the status of all but `halt`, and every register it does not write (rules R24, R38). -/
theorem effect_frame (i : Instr) (s : State) :
    (effect i s).cfg = s.cfg ∧ (effect i s).fault = s.fault ∧ (effect i s).reports = s.reports ∧
    (effect i s).programSize = s.programSize ∧ (effect i s).status = (if i = .halt then .halted else s.status) ∧
    (effect i s).ipWritten = (s.ipWritten || decide (0 ∈ writesOf i s)) ∧ (∀ r, r ∉ writesOf i s → (effect i s).reg r = s.reg r) := by
  cases i with
  | din sizereg recvreg =>
    cases h : s.answers with
    | nil => simp [effect, h, writesOf]
    | cons a l => 
      have e : writesOf (.din sizereg recvreg) s = [recvreg.toNat] := by simp [writesOf, h]
      rw [e]
      simp only [effect, h]
      refine ⟨rfl, rfl, rfl, rfl, rfl, by simp [eq_comm, regIp, setReg_ipWritten], ?_⟩
      intro r hr; simp [setReg_reg] at *; simp [hr]
  | sbit r idx v =>
    by_cases h : idx.toNat < 32
    · have e : writesOf (.sbit r idx v) s = [r.toNat] := by simp [writesOf, h]
      rw [e]; simp only [effect, h, if_true]
      refine ⟨rfl, rfl, rfl, rfl, rfl, by simp [eq_comm, regIp, setReg_ipWritten], ?_⟩
      intro r hr; simp [setReg_reg] at *; simp [hr]
    · simp [writesOf, h, effect]
  | cjmp t =>
    by_cases h : s.getFlag testBit = true
    · simp [effect, writesOf, State.jumpIfTest, h, setReg_ipWritten, regIp]; try (intros; contradiction)
    · simp [effect, writesOf, State.jumpIfTest, h]
  | cjmpr t =>
    by_cases h : s.getFlag testBit = true
    · simp [effect, writesOf, State.jumpIfTest, h, setReg_ipWritten, regIp]; try (intros; contradiction)
    · simp [effect, writesOf, State.jumpIfTest, h]
  | halt => refine ⟨rfl, rfl, rfl, rfl, rfl, ?_, fun _ _ => rfl⟩; simp [effect, writesOf]
  | _ => 
    refine ⟨rfl, rfl, rfl, rfl, rfl, ?_, ?_⟩
    · simp [effect, writesOf, State.setFlag, setReg_ipWritten, regIp, regFl, regSp, eq_comm]
    · intro r hr; simp [effect, writesOf, State.setFlag] at * <;> simp [hr]

end Sys2Proof.Machine
end

