-- ==== Sys2Proof/Laws/PerInstr.lean ====
section
/-! SUPPORT. Per-instruction laws. `ArgumentFields`: the field values of an instruction fit the widths the table
gives its opcode, and the instruction is the one its opcode and fields name (`30_encoding.md` rules R76 to R78). -/

namespace Sys2Proof.Laws

/-- Each operand goes to the field of its own position and comes back from it unchanged. -/
def ArgumentFields.Statement (i : Instr) : Prop :=
  List.Forall₂ (fun w f => f < 2 ^ w) (fieldWidths i.opcode) i.fields ∧ instrOf i.opcode i.fields = i

theorem ArgumentFields.mov (src : RegIdx) (dst : RegIdx) : ArgumentFields.Statement (.mov src dst) := by
  exact ⟨.cons src.isLt (.cons dst.isLt .nil), by simp [instrOf, Instr.opcode, Instr.fields]⟩

theorem ArgumentFields.imm (val : Word) (dst : RegIdx) : ArgumentFields.Statement (.imm val dst) := by
  exact ⟨.cons val.isLt (.cons dst.isLt .nil), by simp [instrOf, Instr.opcode, Instr.fields]⟩

theorem ArgumentFields.mget (addr : RegIdx) (dst : RegIdx) : ArgumentFields.Statement (.mget addr dst) := by
  exact ⟨.cons addr.isLt (.cons dst.isLt .nil), by simp [instrOf, Instr.opcode, Instr.fields]⟩

theorem ArgumentFields.mset (addr : RegIdx) (src : RegIdx) : ArgumentFields.Statement (.mset addr src) := by
  exact ⟨.cons addr.isLt (.cons src.isLt .nil), by simp [instrOf, Instr.opcode, Instr.fields]⟩

theorem ArgumentFields.teq (a : RegIdx) (b : RegIdx) : ArgumentFields.Statement (.teq a b) := by
  exact ⟨.cons a.isLt (.cons b.isLt .nil), by simp [instrOf, Instr.opcode, Instr.fields]⟩

theorem ArgumentFields.tgt (a : RegIdx) (b : RegIdx) : ArgumentFields.Statement (.tgt a b) := by
  exact ⟨.cons a.isLt (.cons b.isLt .nil), by simp [instrOf, Instr.opcode, Instr.fields]⟩

theorem ArgumentFields.tlt (a : RegIdx) (b : RegIdx) : ArgumentFields.Statement (.tlt a b) := by
  exact ⟨.cons a.isLt (.cons b.isLt .nil), by simp [instrOf, Instr.opcode, Instr.fields]⟩

theorem ArgumentFields.cjmp (target : Word) : ArgumentFields.Statement (.cjmp target) := by
  exact ⟨.cons target.isLt .nil, by simp [instrOf, Instr.opcode, Instr.fields]⟩

theorem ArgumentFields.cjmpr (reg : RegIdx) : ArgumentFields.Statement (.cjmpr reg) := by
  exact ⟨.cons reg.isLt .nil, by simp [instrOf, Instr.opcode, Instr.fields]⟩

theorem ArgumentFields.call (target : Word) : ArgumentFields.Statement (.call target) := by
  exact ⟨.cons target.isLt .nil, by simp [instrOf, Instr.opcode, Instr.fields]⟩

theorem ArgumentFields.callr (reg : RegIdx) : ArgumentFields.Statement (.callr reg) := by
  exact ⟨.cons reg.isLt .nil, by simp [instrOf, Instr.opcode, Instr.fields]⟩

theorem ArgumentFields.sbit (r : RegIdx) (idx : BitIdx) (v : BitVec 1) : ArgumentFields.Statement (.sbit r idx v) := by
  exact ⟨.cons r.isLt (.cons idx.isLt (.cons v.isLt .nil)), by simp [instrOf, Instr.opcode, Instr.fields]⟩

theorem ArgumentFields.gbit (src : RegIdx) (dst : RegIdx) (idx : BitIdx) : ArgumentFields.Statement (.gbit src dst idx) := by
  exact ⟨.cons src.isLt (.cons dst.isLt (.cons idx.isLt .nil)), by simp [instrOf, Instr.opcode, Instr.fields]⟩

theorem ArgumentFields.shr (src : RegIdx) (dst : RegIdx) (amtreg : RegIdx) : ArgumentFields.Statement (.shr src dst amtreg) := by
  exact ⟨.cons src.isLt (.cons dst.isLt (.cons amtreg.isLt .nil)), by simp [instrOf, Instr.opcode, Instr.fields]⟩

theorem ArgumentFields.shl (src : RegIdx) (dst : RegIdx) (amtreg : RegIdx) : ArgumentFields.Statement (.shl src dst amtreg) := by
  exact ⟨.cons src.isLt (.cons dst.isLt (.cons amtreg.isLt .nil)), by simp [instrOf, Instr.opcode, Instr.fields]⟩

theorem ArgumentFields.inc (r : RegIdx) : ArgumentFields.Statement (.inc r) := by
  exact ⟨.cons r.isLt .nil, by simp [instrOf, Instr.opcode, Instr.fields]⟩

theorem ArgumentFields.dec (r : RegIdx) : ArgumentFields.Statement (.dec r) := by
  exact ⟨.cons r.isLt .nil, by simp [instrOf, Instr.opcode, Instr.fields]⟩

theorem ArgumentFields.uadd (a : RegIdx) (b : RegIdx) (dst : RegIdx) : ArgumentFields.Statement (.uadd a b dst) := by
  exact ⟨.cons a.isLt (.cons b.isLt (.cons dst.isLt .nil)), by simp [instrOf, Instr.opcode, Instr.fields]⟩

theorem ArgumentFields.usub (a : RegIdx) (b : RegIdx) (dst : RegIdx) : ArgumentFields.Statement (.usub a b dst) := by
  exact ⟨.cons a.isLt (.cons b.isLt (.cons dst.isLt .nil)), by simp [instrOf, Instr.opcode, Instr.fields]⟩

theorem ArgumentFields.umul (a : RegIdx) (b : RegIdx) (dst : RegIdx) : ArgumentFields.Statement (.umul a b dst) := by
  exact ⟨.cons a.isLt (.cons b.isLt (.cons dst.isLt .nil)), by simp [instrOf, Instr.opcode, Instr.fields]⟩

theorem ArgumentFields.udiv (a : RegIdx) (b : RegIdx) (dst : RegIdx) : ArgumentFields.Statement (.udiv a b dst) := by
  exact ⟨.cons a.isLt (.cons b.isLt (.cons dst.isLt .nil)), by simp [instrOf, Instr.opcode, Instr.fields]⟩

theorem ArgumentFields.umod (a : RegIdx) (b : RegIdx) (dst : RegIdx) : ArgumentFields.Statement (.umod a b dst) := by
  exact ⟨.cons a.isLt (.cons b.isLt (.cons dst.isLt .nil)), by simp [instrOf, Instr.opcode, Instr.fields]⟩

theorem ArgumentFields.push (r : RegIdx) : ArgumentFields.Statement (.push r) := by
  exact ⟨.cons r.isLt .nil, by simp [instrOf, Instr.opcode, Instr.fields]⟩

theorem ArgumentFields.pop (r : RegIdx) : ArgumentFields.Statement (.pop r) := by
  exact ⟨.cons r.isLt .nil, by simp [instrOf, Instr.opcode, Instr.fields]⟩

theorem ArgumentFields.dout (sizereg : RegIdx) : ArgumentFields.Statement (.dout sizereg) := by
  exact ⟨.cons sizereg.isLt .nil, by simp [instrOf, Instr.opcode, Instr.fields]⟩

theorem ArgumentFields.din (sizereg : RegIdx) (recvreg : RegIdx) : ArgumentFields.Statement (.din sizereg recvreg) := by
  exact ⟨.cons sizereg.isLt (.cons recvreg.isLt .nil), by simp [instrOf, Instr.opcode, Instr.fields]⟩

theorem ArgumentFields.halt : ArgumentFields.Statement (.halt) := by
  exact ⟨.nil, rfl⟩

end Sys2Proof.Laws
end

