-- ==== Sys2Proof/Laws/Step.lean ====
section
/-! SUPPORT. What one step can do, said once (`40_execution_loop.md` rule R101). -/

namespace Sys2Proof.Machine

/-- The advance changes registers only. -/
theorem advance_cases (s : State) (a : Word) :
    s.advance a = s ∨
    (s.status = .running ∧ s.ipWritten = false ∧ s.pendingRead = none ∧
      s.advance a = { s with regs := cellSet unlistedReg s.regs regIp (a + BitVec.ofNat 32 insnSize) }) := by
  unfold State.advance
  split
  · next h => exact .inr ⟨h.1, h.2.1, h.2.2, rfl⟩
  · exact .inl rfl

@[simp] theorem advance_cfg (s : State) (a : Word) : (s.advance a).cfg = s.cfg := by
  rcases advance_cases s a with h | ⟨_, _, _, h⟩ <;> rw [h]
@[simp] theorem advance_mem (s : State) (a : Word) : (s.advance a).mem = s.mem := by
  rcases advance_cases s a with h | ⟨_, _, _, h⟩ <;> rw [h]
@[simp] theorem advance_status (s : State) (a : Word) : (s.advance a).status = s.status := by
  rcases advance_cases s a with h | ⟨_, _, _, h⟩ <;> rw [h]
@[simp] theorem advance_fault (s : State) (a : Word) : (s.advance a).fault = s.fault := by
  rcases advance_cases s a with h | ⟨_, _, _, h⟩ <;> rw [h]
@[simp] theorem advance_programSize (s : State) (a : Word) : (s.advance a).programSize = s.programSize := by
  rcases advance_cases s a with h | ⟨_, _, _, h⟩ <;> rw [h]
@[simp] theorem advance_ipWritten (s : State) (a : Word) : (s.advance a).ipWritten = s.ipWritten := by
  rcases advance_cases s a with h | ⟨_, _, _, h⟩ <;> rw [h]
@[simp] theorem advance_pendingRead (s : State) (a : Word) : (s.advance a).pendingRead = s.pendingRead := by
  rcases advance_cases s a with h | ⟨_, _, _, h⟩ <;> rw [h]
@[simp] theorem advance_answers (s : State) (a : Word) : (s.advance a).answers = s.answers := by
  rcases advance_cases s a with h | ⟨_, _, _, h⟩ <;> rw [h]
@[simp] theorem advance_ioLog (s : State) (a : Word) : (s.advance a).ioLog = s.ioLog := by
  rcases advance_cases s a with h | ⟨_, _, _, h⟩ <;> rw [h]
@[simp] theorem advance_reports (s : State) (a : Word) : (s.advance a).reports = s.reports := by
  rcases advance_cases s a with h | ⟨_, _, _, h⟩ <;> rw [h]
@[simp] theorem advance_byte (s : State) (a : Word) (x : Nat) : (s.advance a).byte x = s.byte x := by
  rw [State.byte, advance_mem, State.byte]

theorem advance_reg (s : State) (a : Word) (x : Nat) :
    (s.advance a).reg x =
      if x = regIp ∧ s.status = .running ∧ s.ipWritten = false ∧ s.pendingRead = none then a + BitVec.ofNat 32 insnSize
      else s.reg x := by
  unfold State.advance
  split
  · next h =>
    simp [State.reg, h]
  · next h => rw [if_neg fun hx => h hx.2]

/-- The 9 bytes at `ip` decode as `fetch` does. -/
theorem decode_bytes_at_ip (s : State) (i : Instr) :
    decode s.cfg.opcodes (readBytes s.mem s.ip.toNat insnSize) = .ok i ↔
      decodeInstr s.cfg.opcodes s.fetch = some i := by
  unfold decode State.fetch memRead
  rw [if_pos (length_readBytes _ _ _)]
  cases decodeInstr s.cfg.opcodes (rawOfWord (leValue (readBytes s.mem s.ip.toNat insnSize))) <;> simp

/-- A RUNNING step of a constructible machine does one of three things. -/
theorem step_running (s : State) (hrun : s.status = .running) (hcfg : s.cfg.inRange = true) :
    (s.cfg.memCapacity < s.ip.toNat + insnSize ∧ step s = .next (s.beginStep.raise .fetchOutOfBounds)) ∨
    (s.ip.toNat + insnSize ≤ s.cfg.memCapacity ∧ decodeInstr s.cfg.opcodes s.fetch = none ∧
      step s = .next (s.beginStep.raise (.unknownOpcode s.fetch.opcode))) ∨
    (s.ip.toNat + insnSize ≤ s.cfg.memCapacity ∧ ∃ i, decodeInstr s.cfg.opcodes s.fetch = some i ∧
      step s = advanceOut s.ip (exec i s.beginStep)) := by
  have hstep : step s = s.beginStep.checked [s.beginStep.checkFetch] (s.beginStep.runFetched exec) := by
    rw [step, State.sequence, hrun]; simp [hcfg]
  by_cases hf : s.ip.toNat + insnSize ≤ s.cfg.memCapacity
  · have hc : s.beginStep.checkFetch = none := if_pos hf
    rw [hc, checked_none _ _ (by simp)] at hstep
    cases hd : decodeInstr s.cfg.opcodes s.fetch with
    | none =>
      refine .inr (.inl ⟨hf, rfl, ?_⟩)
      rw [hstep, State.runFetched, show decodeInstr s.beginStep.cfg.opcodes s.beginStep.fetch = none from hd]
      rfl
    | some i =>
      refine .inr (.inr ⟨hf, i, rfl, ?_⟩)
      rw [hstep, State.runFetched, show decodeInstr s.beginStep.cfg.opcodes s.beginStep.fetch = some i from hd]
      rfl
  · have hc : s.beginStep.checkFetch = some .fetchOutOfBounds := if_neg hf
    rw [hc, checked_some _ _ (firstCause_some _ _)] at hstep
    exact .inl ⟨by omega, hstep⟩

/-- Outside RUNNING a step changes nothing. -/
theorem step_stopped (s : State) (h : s.status ≠ .running) : step s = .next s := by
  unfold step State.sequence
  split <;> simp_all

/-- What a step that answers a next state has done. -/
theorem step_cases {s t : State} (h : step s = .next t) :
    (s.status ≠ .running ∧ t = s) ∨
    (s.status = .running ∧ s.cfg.inRange = true ∧
      ((s.cfg.memCapacity < s.ip.toNat + insnSize ∧ t = s.beginStep.raise .fetchOutOfBounds) ∨
       (decodeInstr s.cfg.opcodes s.fetch = none ∧ t = s.beginStep.raise (.unknownOpcode s.fetch.opcode)) ∨
       (∃ i u, decodeInstr s.cfg.opcodes s.fetch = some i ∧ exec i s.beginStep = .next u ∧ t = u.advance s.ip))) := by
  by_cases hrun : s.status = .running
  · by_cases hcfg : s.cfg.inRange = true
    · refine .inr ⟨hrun, hcfg, ?_⟩
      rcases step_running s hrun hcfg with ⟨hf, e⟩ | ⟨_, hd, e⟩ | ⟨_, i, hd, e⟩
      · rw [h] at e; exact .inl ⟨hf, by simpa using e⟩
      · rw [h] at e; exact .inr (.inl ⟨hd, by simpa using e⟩)
      · rw [h] at e
        cases hx : exec i s.beginStep with
        | next u => rw [hx] at e; exact .inr (.inr ⟨i, u, hd, hx, by simpa [advanceOut] using e⟩)
        | fault r => rw [hx] at e; simp [advanceOut] at e
        | refused r => rw [hx] at e; simp [advanceOut] at e
    · rw [step, State.sequence, hrun] at h; simp [hcfg] at h
  · rw [step_stopped s hrun] at h; exact .inl ⟨hrun, by simpa using h.symm⟩

end Sys2Proof.Machine
end

