-- ==== Sys2Proof/Laws/Values.lean ====
section
/-! SUPPORT. What wide reads, wide stores, bit fields, the opcode map and the loaded image hold, byte by byte. -/

namespace Sys2Proof.Machine

/-- The word at an address is its four bytes, least significant first (rule R53). -/
theorem word_toNat (s : State) (a : Nat) :
    (s.word a).toNat = (s.byte a).toNat + (s.byte (a + 1)).toNat * 256 + (s.byte (a + 2)).toNat * 256 ^ 2 +
      (s.byte (a + 3)).toNat * 256 ^ 3 := by
  have h0 := (s.byte a).isLt
  have h1 := (s.byte (a + 1)).isLt
  have h2 := (s.byte (a + 2)).isLt
  have h3 := (s.byte (a + 3)).isLt
  simp only [State.word, memRead, readBytes, leValue, BitVec.toNat_ofNat, State.byte, Nat.add_assoc] at *
  norm_num at *
  omega

/-- The bytes of a stored word (rule R54). -/
theorem setWord_byte (s : State) (a : Nat) (v : Word) (k : Nat) (hk : k < 4) :
    (s.setWord a v).byte (a + k) = v.extractLsb' (8 * k) 8 := by
  rw [State.byte, setWord_mem, memWrite, readByte_writeBytes, if_pos (by simpa using hk)]
  apply BitVec.eq_of_toNat_eq
  obtain rfl | rfl | rfl | rfl : k = 0 ∨ k = 1 ∨ k = 2 ∨ k = 3 := by omega
  all_goals simp [leBytes, Nat.shiftRight_eq_div_pow, Nat.div_div_eq_div_mul]

/-- Bytes from the middle of a stored string. -/
theorem readBytes_middle (m : Memory) (a : Nat) (xs ys zs : List Byte) :
    readBytes (writeBytes m a (xs ++ ys ++ zs)) (a + xs.length) ys.length = ys := by
  have h1 := readBytes_writeBytes m a (xs ++ ys ++ zs)
  rw [List.length_append, readBytes_split, List.length_append, readBytes_split, List.append_assoc,
    List.append_assoc] at h1
  have h2 := List.append_inj h1 (by simp)
  have h3 := List.append_inj h2.2 (by simp)
  simpa using h3.1

/-- A program's image is 9 bytes for each instruction (rule R37). -/
@[simp] theorem length_programImage (prog : List RawInstr) : (programImage prog).length = insnSize * prog.length := by
  induction prog with
  | nil => rfl
  | cons r prog ih => simp [programImage, encodeRaw, insnSize] at *; omega

end Sys2Proof.Machine

namespace Sys2Proof

/-- A field read by division is the bits of the argument (rule R74). -/
theorem ofNat_div_mod (arg : Argument) (lo w : Nat) :
    BitVec.ofNat w (arg.toNat / 2 ^ lo % 2 ^ w) = arg.extractLsb' lo w := by
  apply BitVec.eq_of_toNat_eq
  simp [Nat.shiftRight_eq_div_pow]

/-- A bijective map finds every mnemonic again from its byte (rule R7). -/
theorem opcodeOf_byteOf (m : OpcodeMap) (h : m.bijective = true) (op : Opcode) : opcodeOf m (byteOf m op) = some op := by
  simp only [OpcodeMap.bijective, Bool.and_eq_true, decide_eq_true_eq, List.all_eq_true] at h
  obtain ⟨⟨h1, h2⟩, h3⟩ := h
  have hm : op ∈ m.map Prod.fst := by
    simpa using h3 op (by cases op <;> decide)
  clear h3
  induction m with
  | nil => simp at hm
  | cons e m ih =>
    obtain ⟨o, b⟩ := e
    simp only [List.map_cons, List.nodup_cons] at h1 h2
    by_cases ho : o = op
    · subst ho; simp [byteOf, opcodeOf]
    · have hm' : op ∈ m.map Prod.fst := (List.mem_cons.1 hm).resolve_left fun h => ho h.symm
      have hrest := ih h1.2 h2.2 hm'
      have hb : byteOf ((o, b) :: m) op = byteOf m op := by simp [byteOf, ho]
      rw [hb]
      have hne : b ≠ byteOf m op := by
        intro e
        apply h2.1
        obtain ⟨⟨o', b'⟩, hx, rfl⟩ := List.mem_map.1 hm'
        cases hf : m.find? fun e => decide (e.1 = o') with
        | none => have := List.find?_eq_none.1 hf _ hx; simp at this
        | some y =>
          rw [e, byteOf]; simp only [hf]
          exact List.mem_map.2 ⟨y, List.mem_of_find?_eq_some hf, rfl⟩
      simp only [opcodeOf, List.find?_cons] at *
      rw [decide_eq_false hne]
      assumption

end Sys2Proof
end

