-- ==== Sys2Proof/Tests/Slice0.lean ====
section
/-! SUPPORT. Our own tests: the checks on plain data refuse what they should; words of the spec decode to their
instructions; single steps give the results of the spec's vectors (`95_test_vectors.md`, whose numbers the names
carry); and every statement's hypotheses are met by a named case. -/

namespace Sys2Proof.Tests

open Sys2Proof Sys2Proof.Machine

/-! ### The checks on plain data (`00_scope.md` rule R7, `10_state.md` rule R25) -/

/-- Rule R7's defaults are allowed, and so is a memory of no bytes. -/
theorem test_valid_parameters :
    defaultParams.valid = true ∧ Params.valid ⟨0, 5, 0, defaultOpcodeMap⟩ = true := by decide

/-- Fewer special registers than the named five are refused. -/
theorem test_ill_formed_spCount : Params.valid ⟨64, 4, 256, defaultOpcodeMap⟩ = false := by decide

/-- Memory past the last address is refused. -/
theorem test_ill_formed_capacity : Params.valid ⟨0x100000001, 8, 256, defaultOpcodeMap⟩ = false := by decide

/-- A map that leaves an opcode out, and one that gives two opcodes one byte, are refused. -/
theorem test_ill_formed_map :
    OpcodeMap.bijective defaultOpcodeMap.tail = false ∧
    OpcodeMap.bijective ((.mov, 0x1A) :: defaultOpcodeMap.tail) = false := by decide

/-- An instruction that names register 264 of 264 is refused; one that names register 263 is not. -/
theorem test_ill_formed_instruction :
    (Instr.mov 8 264).wellFormed 264 = false ∧ (Instr.mov 8 263).wellFormed 264 = true := by decide

/-! ### Words written out from the spec (`95_test_vectors.md` sections 2, 3 and 5) decode to their instructions -/

/-- What a byte string decodes to under the default map. -/
def read (bytes : List Byte) : Option Instr := (decode defaultOpcodeMap bytes).toOption

theorem test_decode_mov :
    read [0x00, 0x0A, 0x00, 0x0B, 0x00, 0x00, 0x00, 0x00, 0x00] = some (.mov 10 11) := by decide

theorem test_decode_imm :
    read [0x01, 0xFF, 0xFF, 0xFF, 0xFF, 0x0A, 0x00, 0x00, 0x00] = some (.imm 0xFFFFFFFF 10) := by decide

theorem test_decode_mget :
    read [0x02, 0x0C, 0x00, 0x0D, 0x00, 0x00, 0x00, 0x00, 0x00] = some (.mget 12 13) := by decide

theorem test_decode_mset :
    read [0x03, 0x0C, 0x00, 0x08, 0x00, 0x00, 0x00, 0x00, 0x00] = some (.mset 12 8) := by decide

theorem test_decode_teq :
    read [0x04, 0x0A, 0x00, 0x0B, 0x00, 0x00, 0x00, 0x00, 0x00] = some (.teq 10 11) := by decide

theorem test_decode_tgt :
    read [0x05, 0x08, 0x00, 0x0F, 0x00, 0x00, 0x00, 0x00, 0x00] = some (.tgt 8 15) := by decide

theorem test_decode_tlt :
    read [0x06, 0x08, 0x00, 0x08, 0x01, 0x00, 0x00, 0x00, 0x00] = some (.tlt 8 264) := by decide

theorem test_decode_cjmp :
    read [0x07, 0x1B, 0x00, 0x00, 0x00, 0x00, 0x00, 0x00, 0x00] = some (.cjmp 27) := by decide

theorem test_decode_cjmpr :
    read [0x08, 0x2C, 0x01, 0x00, 0x00, 0x00, 0x00, 0x00, 0x00] = some (.cjmpr 300) := by decide

theorem test_decode_call :
    read [0x09, 0x78, 0x56, 0x34, 0x12, 0x00, 0x00, 0x00, 0x00] = some (.call 0x12345678) := by decide

theorem test_decode_callr :
    read [0x0A, 0x07, 0x01, 0x00, 0x00, 0x00, 0x00, 0x00, 0x00] = some (.callr 263) := by decide

theorem test_decode_sbit :
    read [0x0B, 0x08, 0x00, 0x1F, 0x01, 0x00, 0x00, 0x00, 0x00] = some (.sbit 8 31 1) := by decide

theorem test_decode_gbit :
    read [0x0C, 0x08, 0x00, 0x09, 0x00, 0x1F, 0x00, 0x00, 0x00] = some (.gbit 8 9 31) := by decide

theorem test_decode_shr :
    read [0x0D, 0x08, 0x00, 0x0B, 0x00, 0x0A, 0x00, 0x00, 0x00] = some (.shr 8 11 10) := by decide

theorem test_decode_shl :
    read [0x0E, 0x09, 0x00, 0x0C, 0x00, 0x0A, 0x00, 0x00, 0x00] = some (.shl 9 12 10) := by decide

theorem test_decode_inc :
    read [0x0F, 0x09, 0x00, 0x00, 0x00, 0x00, 0x00, 0x00, 0x00] = some (.inc 9) := by decide

theorem test_decode_dec :
    read [0x10, 0x0B, 0x00, 0x00, 0x00, 0x00, 0x00, 0x00, 0x00] = some (.dec 11) := by decide

theorem test_decode_uadd :
    read [0x11, 0x08, 0x00, 0x09, 0x00, 0x0A, 0x00, 0x00, 0x00] = some (.uadd 8 9 10) := by decide

theorem test_decode_usub :
    read [0x12, 0x0B, 0x00, 0x0F, 0x00, 0x0F, 0x00, 0x00, 0x00] = some (.usub 11 15 15) := by decide

theorem test_decode_umul :
    read [0x13, 0x09, 0x00, 0x08, 0x00, 0x09, 0x00, 0x00, 0x00] = some (.umul 9 8 9) := by decide

theorem test_decode_udiv :
    read [0x14, 0x08, 0x00, 0x09, 0x00, 0x2C, 0x01, 0x00, 0x00] = some (.udiv 8 9 300) := by decide

theorem test_decode_umod :
    read [0x15, 0x08, 0x00, 0x09, 0x00, 0x0A, 0x00, 0x00, 0x00] = some (.umod 8 9 10) := by decide

theorem test_decode_push :
    read [0x16, 0x0A, 0x00, 0xAB, 0xCD, 0xEF, 0x01, 0x23, 0x45] = some (.push 10) := by decide

theorem test_decode_pop :
    read [0x17, 0x00, 0x00, 0x00, 0x00, 0x00, 0x00, 0x00, 0x00] = some (.pop 0) := by decide

theorem test_decode_dout :
    read [0x18, 0x0C, 0x00, 0x00, 0x00, 0x00, 0x00, 0x00, 0x00] = some (.dout 12) := by decide

theorem test_decode_din :
    read [0x19, 0x0A, 0x00, 0x0B, 0x00, 0x00, 0x00, 0x00, 0x00] = some (.din 10 11) := by decide

theorem test_decode_halt :
    read [0x1A, 0xFF, 0xFF, 0xFF, 0xFF, 0xFF, 0xFF, 0xFF, 0xFF] = some (.halt) := by decide

/-- An unknown byte, and a string that is not 9 bytes long, are refused by name. -/
theorem test_decode_refuses :
    decode defaultOpcodeMap [0x1B, 0, 0, 0, 0, 0, 0, 0, 0] = .error (.unknownOpcode 0x1B) ∧
    decode defaultOpcodeMap [0x1A, 0, 0, 0, 0, 0, 0, 0] = .error (.wrongLength 8) := ⟨rfl, rfl⟩

/-- Encodings of section 2, one per format. -/
theorem test_encode :
    encode defaultOpcodeMap .halt = [0x1A, 0, 0, 0, 0, 0, 0, 0, 0] ∧
    encode defaultOpcodeMap (.callr 263) = [0x0A, 0x07, 0x01, 0, 0, 0, 0, 0, 0] ∧
    encode defaultOpcodeMap (.call 0x12345678) = [0x09, 0x78, 0x56, 0x34, 0x12, 0, 0, 0, 0] ∧
    encode defaultOpcodeMap (.mov 1 2) = [0x00, 0x01, 0x00, 0x02, 0x00, 0, 0, 0, 0] ∧
    encode defaultOpcodeMap (.imm 0xFFFFFFFF 10) = [0x01, 0xFF, 0xFF, 0xFF, 0xFF, 0x0A, 0x00, 0, 0] ∧
    encode defaultOpcodeMap (.uadd 8 9 10) = [0x11, 0x08, 0x00, 0x09, 0x00, 0x0A, 0x00, 0, 0] ∧
    encode defaultOpcodeMap (.sbit 8 31 1) = [0x0B, 0x08, 0x00, 0x1F, 0x01, 0, 0, 0, 0] ∧
    encode defaultOpcodeMap (.gbit 8 9 31) = [0x0C, 0x08, 0x00, 0x09, 0x00, 0x1F, 0, 0, 0] := by decide

/-- The table's word of `gbit %r8 %r9 31`: byte 0 is bits 7 to 0. -/
theorem test_decodeTableWord : decodeTableWord 72 0x0000001F000900080C = some (.gbit 8 9 31) := by decide


/-! ### Single steps -/

/-- A RUNNING machine of 64 bytes with the default registers and map, one instruction loaded at address 0, and
registers and bytes preset (`95_test_vectors.md` section 0). -/
def before (insn : List Byte) (regs : RegFile) (stores : List (Nat × List Byte)) : State :=
  { State.construct ⟨64, 8, 256, defaultOpcodeMap⟩ [] with
    mem := stores.foldl (fun m st => writeBytes m st.1 st.2) (writeBytes [] 0 insn)
    regs := regs, programSize := 9, status := .running }

/-- The same with the instruction at `a` and `ip` there. -/
def beforeAt (a : Nat) (insn : List Byte) : State :=
  { before [] [(0, BitVec.ofNat 32 a), (1, 9)] [] with mem := writeBytes [] a insn }

/-- The same with one answer of the host to come. -/
def answered (s : State) (answer : List Byte) : State := { s with answers := [answer] }

/-- What is seen of the state after one step. -/
def seen {α : Type} (s : State) (view : State → α) : Option α :=
  match step s with
  | .next t => some (view t)
  | .fault _ => none
  | .refused _ => none

/-- How a step ended: status, `ip` and fault. -/
def caught (s : State) : Option (Status × Word × Option Cause) := seen s fun t => (t.status, t.ip, t.fault.map (·.cause))

/-- V3, `mov %r8 %ip`: indirect jump. -/
theorem test_v3_mov :
    seen (before [0x00, 0x08, 0x00, 0x00, 0x00, 0x00, 0x00, 0x00, 0x00] [(1, 9), (8, 36)] [])
      (fun t => (t.ip, t.reg 8)) = some (36, 36) := by decide

/-- V7, `mov %r8 %r264`: index = N_REG. -/
theorem test_v7_mov :
    caught (before [0x00, 0x08, 0x00, 0x08, 0x01, 0x00, 0x00, 0x00, 0x00] [(1, 9)] [])
    = some (.faulted, 0, some (.registerOutOfRange 264)) := by decide

/-- V10, `imm 5 %r10`: arg[63:48] = 0xFFFF is ignored. -/
theorem test_v10_imm :
    seen (before [0x01, 0x05, 0x00, 0x00, 0x00, 0x0A, 0x00, 0xFF, 0xFF] [(1, 9)] [])
      (fun t => (t.ip, t.reg 10)) = some (9, 5) := by decide

/-- V11, `imm 27 %ip`: absolute jump. -/
theorem test_v11_imm :
    seen (before [0x01, 0x1B, 0x00, 0x00, 0x00, 0x00, 0x00, 0x00, 0x00] [(1, 9)] [])
      (fun t => (t.ip, t.ipWritten)) = some (27, true) := by decide

/-- V15, `mget %r8 %r9`: unaligned, little-endian. -/
theorem test_v15_mget :
    seen (before [0x02, 0x08, 0x00, 0x09, 0x00, 0x00, 0x00, 0x00, 0x00] [(1, 9), (8, 21)] [(21, [0x11, 0x22, 0x33, 0x44])])
      (fun t => (t.ip, t.reg 9)) = some (9, 0x44332211) := by decide

/-- V19, `mget %r8 %r9`: no wrap of a + 4. -/
theorem test_v19_mget :
    caught (before [0x02, 0x08, 0x00, 0x09, 0x00, 0x00, 0x00, 0x00, 0x00] [(1, 9), (8, 0xffffffff), (9, 5)] [])
    = some (.faulted, 0, some (.memoryOutOfBounds 0xffffffff 4)) := by decide

/-- V22, `mset %r8 %r9`: last word in memory. -/
theorem test_v22_mset :
    seen (before [0x03, 0x08, 0x00, 0x09, 0x00, 0x00, 0x00, 0x00, 0x00] [(1, 9), (8, 60), (9, 0x1020304)] [])
      (fun t => (t.ip, t.reg 8, readBytes t.mem 60 4)) = some (9, 60, [0x04, 0x03, 0x02, 0x01]) := by decide

/-- V23, `mset %r8 %r9`: one byte past the end. -/
theorem test_v23_mset :
    caught (before [0x03, 0x08, 0x00, 0x09, 0x00, 0x00, 0x00, 0x00, 0x00] [(1, 9), (8, 61), (9, 0x1020304)] [])
    = some (.faulted, 0, some (.memoryOutOfBounds 61 4)) := by decide

/-- V27, `teq %r8 %r9`: not equal; bits 31:1 of fl kept. -/
theorem test_v27_teq :
    seen (before [0x04, 0x08, 0x00, 0x09, 0x00, 0x00, 0x00, 0x00, 0x00] [(1, 9), (4, 0xffffffff), (8, 5), (9, 6)] [])
      (fun t => (t.ip, t.reg 4)) = some (9, 0xfffffffe) := by decide

/-- V28, `teq %r8 %r8`: same register. -/
theorem test_v28_teq :
    seen (before [0x04, 0x08, 0x00, 0x08, 0x00, 0x00, 0x00, 0x00, 0x00] [(1, 9), (4, 0x80000000), (8, 123)] [])
      (fun t => (t.ip, t.reg 4)) = some (9, 0x80000001) := by decide

/-- V29, `tgt %r8 %r9`: unsigned: 0xFFFFFFFF > 1. -/
theorem test_v29_tgt :
    seen (before [0x05, 0x08, 0x00, 0x09, 0x00, 0x00, 0x00, 0x00, 0x00] [(1, 9), (8, 0xffffffff), (9, 1)] [])
      (fun t => (t.ip, t.reg 4)) = some (9, 1) := by decide

/-- V30, `tgt %r8 %r9`: equal gives 0. -/
theorem test_v30_tgt :
    seen (before [0x05, 0x08, 0x00, 0x09, 0x00, 0x00, 0x00, 0x00, 0x00] [(1, 9), (4, 1), (8, 5), (9, 5)] [])
      (fun t => (t.ip, t.reg 4)) = some (9, 0) := by decide

/-- V31, `tlt %r8 %r9`: unsigned: 0xFFFFFFFF < 1 is false. -/
theorem test_v31_tlt :
    seen (before [0x06, 0x08, 0x00, 0x09, 0x00, 0x00, 0x00, 0x00, 0x00] [(1, 9), (4, 1), (8, 0xffffffff), (9, 1)] [])
      (fun t => (t.ip, t.reg 4)) = some (9, 0) := by decide

/-- V32, `tlt %r8 %r9`: bit 31 of fl kept. -/
theorem test_v32_tlt :
    seen (before [0x06, 0x08, 0x00, 0x09, 0x00, 0x00, 0x00, 0x00, 0x00] [(1, 9), (4, 0x80000000), (8, 1), (9, 2)] [])
      (fun t => (t.ip, t.reg 4)) = some (9, 0x80000001) := by decide

/-- V34, `cjmp 45`: taken. -/
theorem test_v34_cjmp :
    seen (before [0x07, 0x2D, 0x00, 0x00, 0x00, 0x00, 0x00, 0x00, 0x00] [(1, 9), (4, 1)] [])
      (fun t => (t.ip, t.reg 4)) = some (45, 1) := by decide

/-- V36, `cjmp 45`: only bit 0 is TEST. -/
theorem test_v36_cjmp :
    seen (before [0x07, 0x2D, 0x00, 0x00, 0x00, 0x00, 0x00, 0x00, 0x00] [(1, 9), (4, 0xfffffffe)] [])
      (fun t => (t.ip, t.reg 4)) = some (9, 0xfffffffe) := by decide

/-- V39, `cjmpr %r8`: taken to 100; with capacity 64 the next fetch faults. -/
theorem test_v39_cjmpr :
    seen (before [0x08, 0x08, 0x00, 0x00, 0x00, 0x00, 0x00, 0x00, 0x00] [(1, 9), (4, 1), (8, 100)] [])
      (fun t => (t.ip, t.reg 8)) = some (100, 100) := by decide

/-- V41, `cjmpr %r300`: register checked even when not taken. -/
theorem test_v41_cjmpr :
    caught (before [0x08, 0x2C, 0x01, 0x00, 0x00, 0x00, 0x00, 0x00, 0x00] [(1, 9)] [])
    = some (.faulted, 0, some (.registerOutOfRange 300)) := by decide

/-- V43, `call 45`: return address 9 pushed at sp. -/
theorem test_v43_call :
    seen (before [0x09, 0x2D, 0x00, 0x00, 0x00, 0x00, 0x00, 0x00, 0x00] [(1, 9)] [])
      (fun t => (t.ip, t.reg 1, readBytes t.mem 9 4)) = some (45, 13, [0x09, 0x00, 0x00, 0x00]) := by decide

/-- V46, `call 45`: stack overflow. -/
theorem test_v46_call :
    caught (before [0x09, 0x2D, 0x00, 0x00, 0x00, 0x00, 0x00, 0x00, 0x00] [(1, 61)] [])
    = some (.faulted, 0, some (.memoryOutOfBounds 61 4)) := by decide

/-- V48, `callr %sp`: target is the old sp. -/
theorem test_v48_callr :
    seen (before [0x0A, 0x01, 0x00, 0x00, 0x00, 0x00, 0x00, 0x00, 0x00] [(1, 9)] [])
      (fun t => (t.ip, t.reg 1, readBytes t.mem 9 4)) = some (9, 13, [0x09, 0x00, 0x00, 0x00]) := by decide

/-- V50, `callr %r300`: bad register. -/
theorem test_v50_callr :
    caught (before [0x0A, 0x2C, 0x01, 0x00, 0x00, 0x00, 0x00, 0x00, 0x00] [(1, 9)] [])
    = some (.faulted, 0, some (.registerOutOfRange 300)) := by decide

/-- V57, `sbit %r8 255 0`: idx = 255: no write. -/
theorem test_v57_sbit :
    seen (before [0x0B, 0x08, 0x00, 0xFF, 0x00, 0x00, 0x00, 0x00, 0x00] [(1, 9), (8, 0xffffffff)] [])
      (fun t => (t.ip, t.reg 8)) = some (9, 0xffffffff) := by decide

/-- V58, `sbit %ip 3 1`: write to ip: no advance. -/
theorem test_v58_sbit :
    seen (before [0x0B, 0x00, 0x00, 0x03, 0x01, 0x00, 0x00, 0x00, 0x00] [(1, 9)] [])
      (fun t => (t.ip, t.ipWritten)) = some (8, true) := by decide

/-- V64, `gbit %r8 %r9 31`: plain. -/
theorem test_v64_gbit :
    seen (before [0x0C, 0x08, 0x00, 0x09, 0x00, 0x1F, 0x00, 0x00, 0x00] [(1, 9), (8, 0x80000000)] [])
      (fun t => (t.ip, t.reg 9)) = some (9, 1) := by decide

/-- V65, `gbit %r8 %r9 32`: idx = 32 gives 0. -/
theorem test_v65_gbit :
    seen (before [0x0C, 0x08, 0x00, 0x09, 0x00, 0x20, 0x00, 0x00, 0x00] [(1, 9), (8, 0xffffffff), (9, 7)] [])
      (fun t => (t.ip, t.reg 9)) = some (9, 0) := by decide

/-- V70, `shr %r8 %r9 %r10`: logical, not arithmetic. -/
theorem test_v70_shr :
    seen (before [0x0D, 0x08, 0x00, 0x09, 0x00, 0x0A, 0x00, 0x00, 0x00] [(1, 9), (8, 0xffffffff), (10, 4)] [])
      (fun t => (t.ip, t.reg 9)) = some (9, 0xfffffff) := by decide

/-- V73, `shr %r8 %r9 %r10`: amount not masked. -/
theorem test_v73_shr :
    seen (before [0x0D, 0x08, 0x00, 0x09, 0x00, 0x0A, 0x00, 0x00, 0x00] [(1, 9), (8, 0xffffffff), (9, 7), (10, 0xffffffff)] [])
      (fun t => (t.ip, t.reg 9)) = some (9, 0) := by decide

/-- V78, `shl %r8 %r9 %r10`: amount 33 gives 0, not 2. -/
theorem test_v78_shl :
    seen (before [0x0E, 0x08, 0x00, 0x09, 0x00, 0x0A, 0x00, 0x00, 0x00] [(1, 9), (8, 1), (9, 7), (10, 33)] [])
      (fun t => (t.ip, t.reg 9)) = some (9, 0) := by decide

/-- V79, `shl %r8 %r9 %r9`: amtreg = dst reads the old value. -/
theorem test_v79_shl :
    seen (before [0x0E, 0x08, 0x00, 0x09, 0x00, 0x09, 0x00, 0x00, 0x00] [(1, 9), (8, 3), (9, 2)] [])
      (fun t => (t.ip, t.reg 9)) = some (9, 12) := by decide

/-- V80, `inc %r8`: wraps. -/
theorem test_v80_inc :
    seen (before [0x0F, 0x08, 0x00, 0x00, 0x00, 0x00, 0x00, 0x00, 0x00] [(1, 9), (8, 0xffffffff)] [])
      (fun t => (t.ip, t.reg 8)) = some (9, 0) := by decide

/-- V83, `inc %ip`: jumps into the middle of itself. -/
theorem test_v83_inc :
    seen (before [0x0F, 0x00, 0x00, 0x00, 0x00, 0x00, 0x00, 0x00, 0x00] [(1, 9)] [])
      (fun t => (t.ip, t.ipWritten)) = some (1, true) := by decide

/-- V84, `dec %r8`: wraps. -/
theorem test_v84_dec :
    seen (before [0x10, 0x08, 0x00, 0x00, 0x00, 0x00, 0x00, 0x00, 0x00] [(1, 9)] [])
      (fun t => (t.ip, t.reg 8)) = some (9, 0xffffffff) := by decide

/-- V85, `dec %sp`: plain. -/
theorem test_v85_dec :
    seen (before [0x10, 0x01, 0x00, 0x00, 0x00, 0x00, 0x00, 0x00, 0x00] [(1, 9)] [])
      (fun t => (t.ip, t.reg 1)) = some (9, 8) := by decide

/-- V86, `uadd %r8 %r9 %r10`: wraps to 0; no carry kept. -/
theorem test_v86_uadd :
    seen (before [0x11, 0x08, 0x00, 0x09, 0x00, 0x0A, 0x00, 0x00, 0x00] [(1, 9), (8, 0xffffffff), (9, 1)] [])
      (fun t => (t.ip, t.reg 8)) = some (9, 0xffffffff) := by decide

/-- V138, `uadd %r300 %r8 %r400`: first bad field reported. -/
theorem test_v138_uadd :
    caught (before [0x11, 0x2C, 0x01, 0x08, 0x00, 0x90, 0x01, 0x00, 0x00] [(1, 9)] [])
    = some (.faulted, 0, some (.registerOutOfRange 300)) := by decide

/-- V89, `usub %r8 %r9 %r10`: wraps. -/
theorem test_v89_usub :
    seen (before [0x12, 0x08, 0x00, 0x09, 0x00, 0x0A, 0x00, 0x00, 0x00] [(1, 9), (9, 1)] [])
      (fun t => (t.ip, t.reg 10)) = some (9, 0xffffffff) := by decide

/-- V91, `usub %r8 %r9 %r10`: plain. -/
theorem test_v91_usub :
    seen (before [0x12, 0x08, 0x00, 0x09, 0x00, 0x0A, 0x00, 0x00, 0x00] [(1, 9), (8, 0x80000000), (9, 0x7fffffff)] [])
      (fun t => (t.ip, t.reg 10)) = some (9, 1) := by decide

/-- V92, `umul %r8 %r9 %r10`: low 32 bits only. -/
theorem test_v92_umul :
    seen (before [0x13, 0x08, 0x00, 0x09, 0x00, 0x0A, 0x00, 0x00, 0x00] [(1, 9), (8, 0xffffffff), (9, 0xffffffff)] [])
      (fun t => (t.ip, t.reg 10)) = some (9, 1) := by decide

/-- V94, `umul %r8 %r9 %r10`: plain. -/
theorem test_v94_umul :
    seen (before [0x13, 0x08, 0x00, 0x09, 0x00, 0x0A, 0x00, 0x00, 0x00] [(1, 9), (8, 0x12345678), (9, 0x9abcdef0)] [])
      (fun t => (t.ip, t.reg 10)) = some (9, 0x242d2080) := by decide

/-- V102, `udiv %r8 %r9 %r9`: dst = b. -/
theorem test_v102_udiv :
    seen (before [0x14, 0x08, 0x00, 0x09, 0x00, 0x09, 0x00, 0x00, 0x00] [(1, 9), (8, 100), (9, 7)] [])
      (fun t => (t.ip, t.reg 9)) = some (9, 14) := by decide

/-- V103, `udiv %r8 %r9 %r300`: register check precedes the zero check. -/
theorem test_v103_udiv :
    caught (before [0x14, 0x08, 0x00, 0x09, 0x00, 0x2C, 0x01, 0x00, 0x00] [(1, 9), (8, 7)] [])
    = some (.faulted, 0, some (.registerOutOfRange 300)) := by decide

/-- V105, `umod %r8 %r9 %r10`: plain. -/
theorem test_v105_umod :
    seen (before [0x15, 0x08, 0x00, 0x09, 0x00, 0x0A, 0x00, 0x00, 0x00] [(1, 9), (8, 0xffffffff), (9, 16)] [])
      (fun t => (t.ip, t.reg 10)) = some (9, 15) := by decide

/-- V107, `umod %r8 %r9 %r10`: 0 mod 0 is also a fault. -/
theorem test_v107_umod :
    caught (before [0x15, 0x08, 0x00, 0x09, 0x00, 0x0A, 0x00, 0x00, 0x00] [(1, 9), (10, 85)] [])
    = some (.faulted, 0, some (.divideByZero)) := by decide

/-- V110, `push %sp`: stores the old sp. -/
theorem test_v110_push :
    seen (before [0x16, 0x01, 0x00, 0x00, 0x00, 0x00, 0x00, 0x00, 0x00] [(1, 20)] [])
      (fun t => (t.ip, t.reg 1, readBytes t.mem 20 4)) = some (9, 24, [0x14, 0x00, 0x00, 0x00]) := by decide

/-- V113, `push %r10`: overflow. -/
theorem test_v113_push :
    caught (before [0x16, 0x0A, 0x00, 0x00, 0x00, 0x00, 0x00, 0x00, 0x00] [(1, 61), (10, 1)] [])
    = some (.faulted, 0, some (.memoryOutOfBounds 61 4)) := by decide

/-- V115, `pop %sp`: loaded word wins over sp - 4. -/
theorem test_v115_pop :
    seen (before [0x17, 0x01, 0x00, 0x00, 0x00, 0x00, 0x00, 0x00, 0x00] [(1, 24)] [(20, [0x30, 0x00, 0x00, 0x00])])
      (fun t => (t.ip, t.reg 1)) = some (9, 48) := by decide

/-- V117, `pop %r11`: underflow: sp - 4 wraps. -/
theorem test_v117_pop :
    caught (before [0x17, 0x0B, 0x00, 0x00, 0x00, 0x00, 0x00, 0x00, 0x00] [(1, 2), (11, 5)] [])
    = some (.faulted, 0, some (.memoryOutOfBounds 0xfffffffe 4)) := by decide

/-- V121, `dout %r10`: empty write at a = capacity is in bounds. -/
theorem test_v121_dout :
    seen (before [0x18, 0x0A, 0x00, 0x00, 0x00, 0x00, 0x00, 0x00, 0x00] [(1, 9), (2, 7), (3, 64)] [])
      (fun t => (t.ip, t.reg 10, t.ioLog)) = some (9, 0, [.write 7 []]) := by decide

/-- V123, `dout %r10`: buffer overruns the end: no IoWrite. -/
theorem test_v123_dout :
    caught (before [0x18, 0x0A, 0x00, 0x00, 0x00, 0x00, 0x00, 0x00, 0x00] [(1, 9), (2, 1), (3, 60), (10, 5)] [])
    = some (.faulted, 0, some (.memoryOutOfBounds 60 5)) := by decide

/-- V125, `din %r10 %r11`: short answer. -/
theorem test_v125_din :
    seen (answered (before [0x19, 0x0A, 0x00, 0x0B, 0x00, 0x00, 0x00, 0x00, 0x00] [(1, 9), (3, 20), (10, 4), (11, 9)] []) [0x6F, 0x6B])
      (fun t => (t.ip, t.reg 11, readBytes t.mem 20 2, t.ioLog)) = some (9, 2, [0x6F, 0x6B], [.read 0 4 [0x6F, 0x6B]]) := by decide

/-- V128, `din %r10 %r11`: host breaks its contract. -/
theorem test_v128_din :
    caught (answered (before [0x19, 0x0A, 0x00, 0x0B, 0x00, 0x00, 0x00, 0x00, 0x00] [(1, 9), (3, 20), (10, 3), (11, 9)] []) [0x61, 0x62, 0x63, 0x64, 0x65])
    = some (.faulted, 0, some (.ioContractViolation 0 3 5)) := by decide

/-- V134, `halt`: argument ignored. -/
theorem test_v134_halt :
    caught (before [0x1A, 0xFF, 0xFF, 0xFF, 0xFF, 0xFF, 0xFF, 0xFF, 0xFF] [(1, 9)] [])
    = some (.halted, 0, none) := by decide

/-- V135, `(byte 0x1B)`: first unknown byte. -/
theorem test_v135_fetch :
    caught (before [0x1B, 0x00, 0x00, 0x00, 0x00, 0x00, 0x00, 0x00, 0x00] [(1, 9)] [])
    = some (.faulted, 0, some (.unknownOpcode 27)) := by decide

/-- V140, `imm 7 %r8`: fetch at 56: 56 + 9 > 64. -/
theorem test_v140_fetch :
    caught (beforeAt 56 [0x01, 0x07, 0x00, 0x00, 0x00, 0x08, 0x00, 0x00])
    = some (.faulted, 56, some (.fetchOutOfBounds)) := by decide

/-- V141, `imm 7 %r8`: fetch at 55, unaligned and in bounds. -/
theorem test_v141_fetch :
    seen (beforeAt 55 [0x01, 0x07, 0x00, 0x00, 0x00, 0x08, 0x00, 0x00, 0x00])
      (fun t => (t.ip, t.reg 8)) = some (64, 7) := by decide

/-! ### Loading and resetting (`95_test_vectors.md` section 4) -/

/-- A program of `k` instructions, each `halt`. -/
def program (k : Nat) : List RawInstr := List.replicate k ⟨0x1A, 0⟩

/-- What is seen after `load_program` on a machine of `cap` bytes. -/
def loadOf (cap k : Nat) : Option (Status × Word × Word × Option Cause) :=
  match (State.construct ⟨cap, 8, 256, defaultOpcodeMap⟩ []).loadProgram (program k) with
  | .next t => some (t.status, t.programSize, t.sp, t.fault.map (·.cause))
  | .fault _ => none
  | .refused _ => none

theorem test_l1_too_large : loadOf 128 15 = some (.faulted, 0, 0, some (.programTooLarge 135 128)) := by decide
theorem test_l2_fits : loadOf 128 14 = some (.ready, 126, 126, none) := by decide
theorem test_l3_exactly_fits : loadOf 9 1 = some (.ready, 9, 9, none) := by decide
theorem test_l4_too_large : loadOf 8 1 = some (.faulted, 0, 0, some (.programTooLarge 9 8)) := by decide
theorem test_l6_empty : loadOf 8 0 = some (.ready, 0, 0, none) := by decide

/-- Rule R40, and rule R255: what reset memory holds decodes to `mov %ip %ip`. -/
theorem test_reset : State.reset.status = .empty ∧ State.reset.ip = 0 ∧ State.reset.sp = 0 ∧
    decodeInstr defaultOpcodeMap State.reset.fetch = some (.mov 0 0) := by decide

/-- A word placed for the fetch is the next instruction to run. -/
theorem test_withFetchWord :
    seen (State.reset.withFetchWord 72 0x0000000AFFFFFFFF01) (fun t => (t.ip, t.reg 10)) = some (9, 0xFFFFFFFF) := by
  decide

/-! ### Witnesses: the hypotheses of every statement are met, each clause at the ends of its range -/

/-- A machine as `before` gives it, its instruction `mov %ip %ip`. -/
def plain (regs : RegFile) : State := before [] regs []

/-- The registers of a list exist, checked one by one. -/
theorem has_of_all {s : State} {rs : List RegIdx} (h : (rs.all fun r => decide (r.toNat < s.cfg.nReg)) = true) :
    s.has rs := fun r hr => of_decide_eq_true (List.all_eq_true.1 h r hr)

theorem witness_IgnoredArgumentBitsDoNothing : ∀ op, opcodeOf defaultOpcodeMap 0x0B = some op →
    (0x0000000001050008 : Argument).toNat % 2 ^ (fieldWidths op).sum =
      (0xFFFFFFFFFF050008 : Argument).toNat % 2 ^ (fieldWidths op).sum := by
  intro op h
  cases h
  decide

theorem witness_DecodingUndoesEncoding :
    OpcodeMap.bijective defaultOpcodeMap = true ∧
    OpcodeMap.bijective (defaultOpcodeMap.map fun e => (e.1, 0xFF - e.2)) = true := by decide

theorem witness_UnknownOpcodeBytesFault :
    let s := beforeAt 55 [0x1B]
    s.status = .running ∧ s.cfg.inRange = true ∧ s.ip.toNat + 9 ≤ s.cfg.memCapacity ∧
      opcodeOf s.cfg.opcodes (s.byte s.ip.toNat) = none := by decide

theorem witness_StepRunsTheDecodedInstruction :
    let s := beforeAt 55 [0x1A]
    s.status = .running ∧ s.cfg.inRange = true ∧ s.ip.toNat + 9 ≤ s.cfg.memCapacity ∧
      decode s.cfg.opcodes (readBytes s.mem s.ip.toNat 9) = .ok .halt := ⟨rfl, rfl, by decide, rfl⟩

theorem witness_FetchPastTheEndFaults :
    let s := beforeAt 56 [0x1A]
    s.status = .running ∧ s.cfg.inRange = true ∧ s.cfg.memCapacity < s.ip.toNat + 9 := by decide

/-- Both clauses: `inc %r8` leaves `ip` unwritten, `inc %ip` writes it. -/
theorem witness_AdvanceFollowsIpWritten :
    let s := before [0x0F, 0x08] [] []
    let r := before [0x0F, 0x00] [] []
    (s.status = .running ∧ s.cfg.inRange = true ∧ s.ip.toNat + 9 ≤ s.cfg.memCapacity ∧
      decodeInstr s.cfg.opcodes s.fetch = some (.inc 8) ∧
      ∃ u, exec (.inc 8) s.beginStep = .next u ∧ u.status = .running ∧ u.pendingRead = none ∧ u.ipWritten = false) ∧
    (r.status = .running ∧ r.cfg.inRange = true ∧ r.ip.toNat + 9 ≤ r.cfg.memCapacity ∧
      decodeInstr r.cfg.opcodes r.fetch = some (.inc 0) ∧
      ∃ u, exec (.inc 0) r.beginStep = .next u ∧ u.status = .running ∧ u.pendingRead = none ∧ u.ipWritten = true) :=
  ⟨⟨rfl, rfl, by decide, rfl, _, rfl, rfl, rfl, rfl⟩, ⟨rfl, rfl, by decide, rfl, _, rfl, rfl, rfl, rfl⟩⟩

/-- Each case: `mov %ip %ip` and a taken jump write `ip`; an untaken jump, an `sbit` past bit 31 and a `din` that
waits complete, or wait, without writing it. -/
theorem witness_EveryIpWriteSetsIpWritten :
    (plain []).ipWritten = false ∧ (plain []).status ≠ .faulted ∧
    (∃ t, exec (.mov 0 0) (plain []) = .next t ∧ t.status ≠ .faulted ∧ 0 ∈ writesOf (.mov 0 0) (plain [])) ∧
    (∃ t, exec (.cjmp 0) (plain [(4, 1)]) = .next t ∧ t.status ≠ .faulted ∧ 0 ∈ writesOf (.cjmp 0) (plain [(4, 1)])) ∧
    (∃ t, exec (.cjmp 0) (plain []) = .next t ∧ t.status ≠ .faulted ∧ 0 ∉ writesOf (.cjmp 0) (plain [])) ∧
    (∃ t, exec (.sbit 0 32 1) (plain []) = .next t ∧ t.status ≠ .faulted ∧
      0 ∉ writesOf (.sbit 0 32 1) (plain [])) ∧
    (∃ t, exec (.din 8 0) (plain []) = .next t ∧ t.status ≠ .faulted ∧ 0 ∉ writesOf (.din 8 0) (plain [])) :=
  ⟨rfl, by decide, ⟨_, rfl, by decide, by decide⟩, ⟨_, rfl, by decide, by decide⟩, ⟨_, rfl, by decide, by decide⟩,
    ⟨_, rfl, by decide, by decide⟩, ⟨_, rfl, by decide, by decide⟩⟩

theorem witness_EndedRunsStayAsTheyAre :
    State.status { plain [] with status := .halted } = .halted ∧
    State.status ((plain []).raise .divideByZero) = .faulted := by decide

theorem witness_HaltEndsTheRun :
    let s := beforeAt 55 [0x1A]
    s.status = .running ∧ s.cfg.inRange = true ∧ s.ip.toNat + 9 ≤ s.cfg.memCapacity ∧
      decodeInstr s.cfg.opcodes s.fetch = some .halt := by decide

theorem witness_FaultingStepsCommitNothing :
    let s := before [0x14, 0x08, 0x00, 0x09, 0x00, 0x0A] [(8, 7)] []
    s.status = .running ∧ ∃ t, step s = .next t ∧ t.status = .faulted := ⟨rfl, _, rfl, rfl⟩

theorem witness_RegisterFieldsAreCheckedFirst :
    (Instr.regFields (.uadd 300 8 400)).find? (fun x => decide ((plain []).cfg.nReg ≤ x.toNat)) = some 300 := by decide

theorem witness_MovCopiesARegister : (plain []).has [263, 0] := has_of_all (by decide)
theorem witness_ImmLoadsItsField : (plain []).has [263] := has_of_all (by decide)

/-- Both clauses: the last word of memory, and one byte past it. -/
theorem witness_MgetLoadsALittleEndianWord :
    ((plain [(8, 60)]).has [8, 9] ∧ (plain [(8, 60)]).reg (8 : RegIdx).toNat = 60 ∧
      (60 : Word).toNat + 4 ≤ (plain [(8, 60)]).cfg.memCapacity) ∧
    ((plain [(8, 61)]).has [8, 9] ∧ (plain [(8, 61)]).reg (8 : RegIdx).toNat = 61 ∧
      (plain [(8, 61)]).cfg.memCapacity < (61 : Word).toNat + 4) :=
  ⟨⟨has_of_all (by decide), by decide⟩, ⟨has_of_all (by decide), by decide⟩⟩

/-- Both clauses. -/
theorem witness_MsetStoresALittleEndianWord :
    ((plain [(8, 60)]).has [8, 8] ∧ (plain [(8, 60)]).reg (8 : RegIdx).toNat = 60 ∧
      (60 : Word).toNat + 4 ≤ (plain [(8, 60)]).cfg.memCapacity) ∧
    ((plain [(8, 61)]).has [8, 8] ∧ (plain [(8, 61)]).reg (8 : RegIdx).toNat = 61 ∧
      (plain [(8, 61)]).cfg.memCapacity < (61 : Word).toNat + 4) :=
  ⟨⟨has_of_all (by decide), by decide⟩, ⟨has_of_all (by decide), by decide⟩⟩

theorem witness_ComparisonsWriteTestAlone : (plain []).has [4, 263] := has_of_all (by decide)

/-- Both clauses, for either jump. -/
theorem witness_ConditionalJumpsFollowTest :
    (plain [(4, 0x00000001)]).fl.getLsbD 0 = true ∧ (plain [(4, 0xFFFFFFFE)]).fl.getLsbD 0 = false ∧
    (plain []).has [263] := ⟨by decide, by decide, has_of_all (by decide)⟩

/-- Both clauses and both forms; `callr %sp` takes its target from `sp`. -/
theorem witness_CallsPushTheReturnAddress :
    (plain [(1, 60)]).sp.toNat + 4 ≤ (plain [(1, 60)]).cfg.memCapacity ∧
    (plain [(1, 61)]).cfg.memCapacity < (plain [(1, 61)]).sp.toNat + 4 ∧
    (plain [(1, 60)]).has [1] ∧ (60 : Word) = (plain [(1, 60)]).reg (1 : RegIdx).toNat :=
  ⟨by decide, by decide, has_of_all (by decide), by decide⟩

/-- From the last slot, `i` completes and leaves states from which `pop %ip` is to return. -/
def CallsFrom (i : Instr) : Prop :=
  ∃ t u : State, exec i (plain [(1, 60)]) = .next t ∧ t.status ≠ .faulted ∧ u.cfg = (plain [(1, 60)]).cfg ∧
    u.sp = t.sp ∧ ∀ k, k < 4 → u.byte ((plain [(1, 60)]).sp.toNat + k) = t.byte ((plain [(1, 60)]).sp.toNat + k)

theorem callsFrom_of_next {i : Instr} (h : ∃ t, exec i (plain [(1, 60)]) = .next t ∧ t.status ≠ .faulted ∧
    t.cfg = (plain [(1, 60)]).cfg) : CallsFrom i := by
  obtain ⟨t, h1, h2, h3⟩ := h
  exact ⟨t, t, h1, h2, h3, rfl, fun _ _ => rfl⟩

/-- Both forms; `callr %sp` has its target in `sp`. -/
theorem witness_PopIpReturnsFromACall :
    (plain [(1, 60)]).cfg.inRange = true ∧ CallsFrom (.call 45) ∧ CallsFrom (.callr 1) :=
  ⟨by decide, callsFrom_of_next ⟨_, rfl, by decide, rfl⟩, callsFrom_of_next ⟨_, rfl, by decide, rfl⟩⟩

theorem witness_SetFlagChangesOneBit : 0 < 32 ∧ 31 < 32 := by decide

/-- Both clauses at their ends. -/
theorem witness_SbitChangesOneBit :
    (plain []).has [263] ∧ (31 : BitIdx).toNat < 32 ∧ 32 ≤ (32 : BitIdx).toNat ∧ 32 ≤ (255 : BitIdx).toNat :=
  ⟨has_of_all (by decide), by decide⟩

theorem witness_GbitReadsOneBit : (plain []).has [4, 263] := has_of_all (by decide)
theorem witness_ShiftsAreLogicalAndUnmasked : (plain []).has [8, 263, 8] := has_of_all (by decide)
theorem witness_IncAndDecWrap : (plain []).has [0] ∧ (plain []).has [263] :=
  ⟨has_of_all (by decide), has_of_all (by decide)⟩
theorem witness_AddSubMulWrap : (plain []).has [8, 8, 8] := has_of_all (by decide)

/-- Both clauses. -/
theorem witness_DivAndModAreUnsigned :
    (plain [(9, 1)]).has [8, 9, 263] ∧ ((plain [(9, 1)]).reg (9 : RegIdx).toNat).toNat ≠ 0 ∧
    ((plain []).reg (9 : RegIdx).toNat).toNat = 0 := ⟨has_of_all (by decide), by decide⟩

/-- Both clauses. -/
theorem witness_PushStoresAtSp :
    (plain [(1, 60)]).has [1] ∧ (plain [(1, 60)]).sp.toNat + 4 ≤ (plain [(1, 60)]).cfg.memCapacity ∧
    (plain [(1, 61)]).cfg.memCapacity < (plain [(1, 61)]).sp.toNat + 4 := ⟨has_of_all (by decide), by decide⟩

/-- Both clauses: the last slot, one byte past it, and the wrap below 0. -/
theorem witness_PopPreDecrements :
    (plain [(1, 64)]).has [1] ∧
    (((60 : Word).toNat : Int) = (((plain [(1, 64)]).sp.toNat : Int) - 4) % 2 ^ 32 ∧
      (60 : Word).toNat + 4 ≤ (plain [(1, 64)]).cfg.memCapacity) ∧
    (((61 : Word).toNat : Int) = (((plain [(1, 65)]).sp.toNat : Int) - 4) % 2 ^ 32 ∧
      (plain [(1, 65)]).cfg.memCapacity < (61 : Word).toNat + 4) ∧
    (((0xFFFFFFFC : Word).toNat : Int) = (((plain []).sp.toNat : Int) - 4) % 2 ^ 32 ∧
      (plain []).cfg.memCapacity < (0xFFFFFFFC : Word).toNat + 4) := ⟨has_of_all (by decide), by decide⟩

theorem witness_PushThenPopRoundTrips :
    (plain [(1, 60)]).cfg.inRange = true ∧ (plain [(1, 60)]).has [10, 2] ∧ 2 ≤ (2 : RegIdx).toNat ∧
      ∃ t, exec (.push 10) (plain [(1, 60)]) = .next t ∧ t.status ≠ .faulted :=
  ⟨rfl, has_of_all (by decide), by decide, _, rfl, by decide⟩

/-- Both clauses: a buffer that ends at the capacity, and an empty one past it. -/
theorem witness_DoutWritesItsBuffer :
    (plain [(3, 60), (8, 4)]).has [8] ∧ (plain [(3, 60), (8, 4)]).reg (8 : RegIdx).toNat = 4 ∧
    (plain [(3, 60), (8, 4)]).dbdata.toNat + (4 : Word).toNat ≤ (plain [(3, 60), (8, 4)]).cfg.memCapacity ∧
    (plain [(3, 65)]).reg (8 : RegIdx).toNat = 0 ∧
    (plain [(3, 65)]).cfg.memCapacity < (plain [(3, 65)]).dbdata.toNat + (0 : Word).toNat :=
  ⟨has_of_all (by decide), by decide⟩

/-- Both clauses; the answer fills the buffer, or is empty. -/
theorem witness_DinStoresTheDeliveredBytes :
    let s := answered (plain [(3, 60), (8, 4)]) [1, 2, 3, 4]
    let r := answered (plain [(3, 61), (8, 4)]) []
    s.has [8, 8] ∧ s.reg (8 : RegIdx).toNat = 4 ∧ s.dbdata.toNat + (4 : Word).toNat ≤ s.cfg.memCapacity ∧
    s.answers = [1, 2, 3, 4] :: [] ∧ [1, 2, 3, 4].length ≤ (4 : Word).toNat ∧
    r.reg (8 : RegIdx).toNat = 4 ∧ r.cfg.memCapacity < r.dbdata.toNat + (4 : Word).toNat :=
  ⟨has_of_all (by decide), by decide⟩

theorem witness_OverlongAnswersFault :
    let s := answered (plain [(3, 61), (8, 3)]) [1, 2, 3, 4]
    s.has [8, 9] ∧ s.reg (8 : RegIdx).toNat = 3 ∧ s.dbdata.toNat + (3 : Word).toNat ≤ s.cfg.memCapacity ∧
    s.answers = [1, 2, 3, 4] :: [] ∧ (3 : Word).toNat < [1, 2, 3, 4].length :=
  ⟨has_of_all (by decide), by decide⟩

theorem witness_UnansweredDinWaitsForEver :
    let s := before [0x19, 0x08, 0x00, 0x09] [(3, 60), (8, 4)] []
    s.status = .running ∧ s.cfg.inRange = true ∧ s.ip.toNat + 9 ≤ s.cfg.memCapacity ∧
      decodeInstr s.cfg.opcodes s.fetch = some (.din 8 9) ∧ s.has [8, 9] ∧
      s.dbdata.toNat + (s.reg (8 : RegIdx).toNat).toNat ≤ s.cfg.memCapacity ∧ s.answers = [] :=
  ⟨by decide, by decide, by decide, by decide, has_of_all (by decide), by decide⟩

/-- Each clause: a `dout`, a `din` with and without an answer, a faulting `dout` and `din`, and another opcode. -/
theorem witness_OnlyDoutAndDinTouchThePort :
    (plain []).status ≠ .faulted ∧
    (∃ t, exec (.dout 8) (plain []) = .next t ∧ t.status ≠ .faulted) ∧
    (∃ t, exec (.din 8 9) (answered (plain []) []) = .next t ∧ t.status ≠ .faulted) ∧
    (∃ t, exec (.din 8 9) (plain []) = .next t ∧ t.status ≠ .faulted) ∧
    (∃ t, exec (.dout 264) (plain []) = .next t ∧ t.status = .faulted) ∧
    (∃ t, exec (.din 8 9) (answered (plain []) [1]) = .next t ∧ t.status = .faulted) ∧
    (∃ t, exec (.inc 8) (plain []) = .next t ∧ (Instr.inc 8).opcode ≠ .dout ∧ (Instr.inc 8).opcode ≠ .din) :=
  ⟨by decide, ⟨_, rfl, by decide⟩, ⟨_, rfl, by decide⟩, ⟨_, rfl, by decide⟩, ⟨_, rfl, by decide⟩,
    ⟨_, rfl, by decide⟩, ⟨_, rfl, by decide, by decide⟩⟩

theorem witness_AccessesAreLittleEndian : 3 < 4 ∧ (39 < 40 ∨ 40 + 4 ≤ 39) ∧ (44 < 40 ∨ 40 + 4 ≤ 44) := by decide

theorem witness_OnlyWrittenRegistersChange :
    ∃ t, exec (.mov 8 9) (plain [(8, 5)]) = .next t ∧ 8 ∉ writesOf (.mov 8 9) (plain [(8, 5)]) := ⟨_, rfl, by decide⟩

/-- Just below and just above the stored bytes. -/
theorem witness_OnlyStoredBytesChange :
    let s := plain [(8, 40)]
    ∃ t, exec (.mset 8 9) s = .next t ∧
      (39 < (storesOf (.mset 8 9) s).1 ∨ (storesOf (.mset 8 9) s).1 + (storesOf (.mset 8 9) s).2 ≤ 39) ∧
      (44 < (storesOf (.mset 8 9) s).1 ∨ (storesOf (.mset 8 9) s).1 + (storesOf (.mset 8 9) s).2 ≤ 44) :=
  ⟨_, rfl, by decide, by decide⟩

/-- Both cases: a comparison, and a write of `fl`. -/
theorem witness_FlagsChangeOnlyAsListed :
    (∃ t, exec (.teq 8 9) (plain []) = .next t ∧ t.fl ≠ (plain []).fl) ∧
    (∃ t, exec (.inc 4) (plain []) = .next t ∧ t.fl ≠ (plain []).fl) :=
  ⟨⟨_, rfl, by decide⟩, ⟨_, rfl, by decide⟩⟩

/-- A step for each of the three cases: `inc`, `halt`, and a division by zero. -/
theorem witness_StatusChangesOnlyAsListed :
    (∃ t, step (before [0x0F, 0x08] [] []) = .next t ∧ t.status = .running) ∧
    (∃ t, step (before [0x1A] [] []) = .next t ∧ t.status = .halted) ∧
    (∃ t, step (before [0x14, 0x08, 0x00, 0x09, 0x00, 0x0A] [] []) = .next t ∧ t.status = .faulted) :=
  ⟨⟨_, rfl, rfl⟩, ⟨_, rfl, rfl⟩, ⟨_, rfl, rfl⟩⟩

theorem witness_StepsKeepParametersAndHistory : ∃ t, step (before [0x18, 0x08] [(8, 2)] []) = .next t := ⟨_, rfl⟩

theorem witness_ProgramSizeIsNeverRead :
    (State.construct ⟨9, 8, 256, defaultOpcodeMap⟩ []).cfg.inRange = true ∧
    (∃ t, (State.construct ⟨9, 8, 256, defaultOpcodeMap⟩ []).loadProgram (program 1) = .next t ∧ t.status = .ready) ∧
    (∃ t, step (beforeAt 55 [0x1A]) = .next t) := ⟨by decide, ⟨_, rfl, rfl⟩, ⟨_, rfl⟩⟩

/-- A running machine with a `halt` in its last 9 bytes and `ip` there. -/
def atTheEnd (pending : Option IoRequest) : State :=
  { beforeAt 55 [0x1A] with regs := [(0, 55)], pendingRead := pending }

/-- It is sound, with a read pending or not. -/
theorem sound_atTheEnd (pending : Option IoRequest) : (atTheEnd pending).Inv := by
  refine ⟨(by decide : Params.valid ⟨64, 8, 256, defaultOpcodeMap⟩ = true),
    ⟨(by decide : Memory.wf [(55, 0x1A)] = true), fun a ha => ?_,
      (by decide : RegFile.wf [(0, 55)] = true), fun r hr => ?_⟩, ⟨nofun, rfl⟩, fun _ => rfl⟩
  · have h64 : 64 ≤ a := ha
    have : a ≠ 55 := by omega
    show cellGet unlistedByte [(55, 0x1A)] a = _
    simp [cellGet, this]
  · have h264 : 264 ≤ r := hr
    have : r ≠ 0 := by omega
    show cellGet unlistedReg [(0, 55)] r = _
    simp [cellGet, this]

theorem witness_StepsKeepTheInvariant : (atTheEnd none).Inv ∧ ∃ t, step (atTheEnd none) = .next t :=
  ⟨sound_atTheEnd none, _, rfl⟩

theorem witness_SoundStatesAlwaysStep : (atTheEnd (some ⟨0, 4⟩)).Inv := sound_atTheEnd _

/-- A machine just constructed, in a status other than FAULTED, is sound. -/
theorem sound_constructed (status : Status) (h : status ≠ .faulted) :
    State.Inv { State.construct ⟨64, 8, 256, defaultOpcodeMap⟩ [] with status := status } :=
  ⟨(by decide : Params.valid ⟨64, 8, 256, defaultOpcodeMap⟩ = true), ⟨rfl, fun _ _ => rfl, rfl, fun _ _ => rfl⟩,
    ⟨h, rfl⟩, nofun⟩

/-- Each command on a sound state that does not refuse it. -/
theorem witness_HostCommandsKeepTheInvariant :
    (∃ t, construct ⟨0, 5, 0, defaultOpcodeMap⟩ [[1]] = .next t) ∧
    (∃ s t : State, s.Inv ∧ s.loadProgram (program 7) = .next t) ∧
    (∃ s t : State, s.Inv ∧ s.startRun = .next t) ∧
    (∃ s t : State, s.Inv ∧ s.answerRead [0x6F] = .next t) :=
  ⟨⟨_, rfl⟩, ⟨_, _, sound_constructed .empty (by decide), rfl⟩, ⟨_, _, sound_constructed .ready (by decide), rfl⟩,
    ⟨_, _, sound_atTheEnd (some ⟨0, 4⟩), rfl⟩⟩

theorem witness_ConstructionClearsEverything :
    Params.valid ⟨0, 5, 0, defaultOpcodeMap⟩ = true ∧ Params.valid ⟨0x100000000, 8, 256, defaultOpcodeMap⟩ = true := by
  decide

/-- Seven instructions fill 63 of 64 bytes; the last of them is number 6. -/
theorem witness_LoadPlacesTheProgram :
    let s := State.construct ⟨64, 8, 256, defaultOpcodeMap⟩ []
    s.cfg.inRange = true ∧ s.status = .empty ∧ 9 * (program 7).length ≤ s.cfg.memCapacity ∧
      (program 7)[6]? = some ⟨0x1A, 0⟩ := by decide

theorem witness_TooLargeProgramsFault :
    let s := State.construct ⟨64, 8, 256, defaultOpcodeMap⟩ []
    s.status = .empty ∧ s.cfg.memCapacity < 9 * (program 8).length := by decide

/-- Each clause. -/
theorem witness_CommandsFollowTheLifecycle :
    (plain []).status ≠ .empty ∧ (plain []).status ≠ .ready ∧
    State.status { State.construct ⟨64, 8, 256, defaultOpcodeMap⟩ [] with status := .ready } = .ready := by decide

theorem witness_FirstStepRunsTheFirstInstruction :
    let p : Params := ⟨9, 5, 0, defaultOpcodeMap⟩
    p.valid = true ∧ 9 * (([] : List RawInstr).length + 1) ≤ p.memCapacity ∧
      decodeInstr p.opcodes ⟨0x1A, 0⟩ = some .halt := by decide

/-- Each clause: a read pending and none; and a waiting `din` whose answer fills its buffer, at the end of memory, or is
one byte longer. -/
theorem witness_AnAnswerEndsTheWait :
    let s := before [0x19, 0x08, 0x00, 0x09] [(3, 60), (8, 4)] []
    (atTheEnd (some ⟨0, 4⟩)).pendingRead.isSome = true ∧ (atTheEnd none).pendingRead = none ∧
    s.status = .running ∧ s.cfg.inRange = true ∧ s.ip.toNat + 9 ≤ s.cfg.memCapacity ∧
    decodeInstr s.cfg.opcodes s.fetch = some (.din 8 9) ∧ s.has [8, 9] ∧ s.reg (8 : RegIdx).toNat = 4 ∧
    s.dbdata.toNat + (4 : Word).toNat ≤ s.cfg.memCapacity ∧ s.answers = [] ∧
    ([1, 2, 3, 4] : List Byte).length ≤ (4 : Word).toNat ∧ (4 : Word).toNat < ([1, 2, 3, 4, 5] : List Byte).length :=
  ⟨rfl, rfl, by decide, by decide, by decide, by decide, has_of_all (by decide), by decide⟩

end Sys2Proof.Tests
end

section
/-! PROOF. The scope of an instruction and of a step (`00_scope.md`): which registers and bytes an instruction may
change whatever its outcome, and that reset is sound and every step keeps a sound state sound. -/

namespace Sys2Proof.Machine

/-! ### What an instruction leaves alone -/

/-- A completed instruction changes no byte outside its store; a `din` for whose answer this is asked has kept the
collaborator's contract (rule R203). -/
theorem effect_byte_outside (i : Instr) (s : State)
    (hdin : ∀ sizereg recvreg, i = .din sizereg recvreg →
      ∀ answer ∈ s.answers.head?, answer.length ≤ (s.reg sizereg.toNat).toNat)
    (a : Nat) (ha : a < (storesOf i s).1 ∨ (storesOf i s).1 + (storesOf i s).2 ≤ a) :
    (effect i s).byte a = s.byte a := by
  cases i with
  | mset addr src => exact setWord_byte_outside s _ a _ ha
  | call target => exact pushed_byte_outside s a s.returnAddress ha
  | callr reg => exact pushed_byte_outside s a s.returnAddress ha
  | push r => exact pushed_byte_outside s a (s.reg r.toNat) ha
  | din sizereg recvreg =>
    simp only [effect]
    split
    · rfl
    · next answer later hans =>
      have hlen : answer.length ≤ (s.reg sizereg.toNat).toNat := hdin sizereg recvreg rfl answer (by simp [hans])
      refine setBytes_byte_outside (s.ioAnswered _ _ answer later) _ a answer ?_
      simp only [storesOf, get_eq] at ha
      omega
  | cjmp target => simp only [effect, State.jumpIfTest]; split <;> rfl
  | cjmpr reg => simp only [effect, State.jumpIfTest]; split <;> rfl
  | sbit r idx v => simp only [effect]; split <;> rfl
  | _ => rfl

/-- Settles O41: a fault writes no register, and a completed instruction only those of `writesOf`. -/
theorem onlyWrittenRegistersChange : Obligations.OnlyWrittenRegistersChange := by
  intro i s t h r hr
  rcases exec_ended h with ⟨c, rfl, _⟩ | ⟨_, _, _, _, _, _, _, rfl⟩ | ⟨rfl, _⟩
  · exact raise_reg s c r
  · rw [raise_reg, ioAnswered_reg]
  · obtain ⟨-, -, -, -, -, -, hregs⟩ := effect_frame i s
    exact hregs r hr

/-- Settles O42: a fault writes no byte, and a completed instruction only those of `storesOf`. -/
theorem onlyStoredBytesChange : Obligations.OnlyStoredBytesChange := by
  intro i s t h a ha
  rcases exec_ended h with ⟨c, rfl, _⟩ | ⟨_, _, _, _, _, _, _, rfl⟩ | ⟨rfl, _, hdin⟩
  · exact raise_byte s c a
  · rw [raise_byte, ioAnswered_byte]
  · exact effect_byte_outside i s hdin a ha

/-! ### Storage and the pending read -/

/-- A machine that can be constructed has its five special registers (rules R7 and R22). -/
theorem five_le_nReg {p : Params} (h : p.valid = true) : 5 ≤ p.nReg := by
  simp only [Params.valid, Params.inRange, Bool.and_eq_true, decide_eq_true_eq] at h
  unfold Params.nReg
  omega

theorem setReg_stored {s : State} {r : Nat} (v : Word) (h : s.stored) (hr : r < s.cfg.nReg) :
    (s.setReg r v).stored := by
  obtain ⟨hmem, hbytes, hregs, hzero⟩ := h
  refine ⟨hmem, hbytes, cellsWf_cellSet s.regs r v hregs, fun x hx => ?_⟩
  have hne : x ≠ r := by rw [setReg_cfg] at hx; omega
  rw [setReg_reg, if_neg hne, hzero x hx]

theorem setBytes_stored {s : State} {a : Nat} {bs : List Byte} (h : s.stored)
    (ha : a + bs.length ≤ s.cfg.memCapacity) : (s.setBytes a bs).stored := by
  obtain ⟨hmem, hbytes, hregs, hzero⟩ := h
  refine ⟨writeBytes_wf s.mem a bs hmem, fun x hx => ?_, hregs, hzero⟩
  rw [setBytes_byte_outside s a x bs (.inr (ha.trans hx)), hbytes x hx]

/-- A stored word is its four bytes stored (rule R54). -/
theorem setWord_stored {s : State} {a : Nat} (v : Word) (h : s.stored) (ha : a + 4 ≤ s.cfg.memCapacity) :
    (s.setWord a v).stored :=
  setBytes_stored (bs := leBytes 4 v.toNat) h (by rwa [length_leBytes])

/-- What of `State.Inv` every update keeps: all of it but the agreement of the fault record, which allows only one
fault to be raised. -/
def State.Storage (s : State) : Prop :=
  s.cfg.valid = true ∧ s.stored ∧ (s.pendingRead.isSome = true → s.status = .running)

theorem inv_iff (s : State) : s.Inv ↔ s.Storage ∧ s.faultsAgree := by
  unfold State.Inv State.Storage; tauto

theorem storage_kept : Kept State.Storage where
  raise _ _ := fun ⟨hv, hst, _⟩ hnone _ => ⟨hv, hst, by simp [hnone]⟩
  setReg _ _ v := fun ⟨hv, hst, hp⟩ hr => ⟨hv, setReg_stored v hst hr, hp⟩
  setWord _ _ v := fun ⟨hv, hst, hp⟩ ha => ⟨hv, setWord_stored v hst ha, hp⟩
  setBytes _ _ _ := fun ⟨hv, hst, hp⟩ ha => ⟨hv, setBytes_stored hst ha, hp⟩
  ioWrite _ _ _ h := h
  ioAnswered _ _ _ _ _ := fun ⟨hv, hst, _⟩ => ⟨hv, hst, by simp⟩
  ioWaits _ _ _ := fun ⟨hv, hst, _⟩ hrun => ⟨hv, hst, fun _ => hrun⟩
  halt _ := fun ⟨hv, hst, _⟩ hnone => ⟨hv, hst, by simp [hnone]⟩

/-! ### Fault record and reports -/

/-- Before any fault, agreement says that nothing is recorded and nothing reported (rule R36). -/
theorem faultsAgree_iff_of_not_faulted {s : State} (h : s.status ≠ .faulted) :
    s.faultsAgree ↔ s.fault = none ∧ s.reports = [] := by
  unfold State.faultsAgree
  split <;> simp_all

/-- The first fault raised is recorded and reported once (rules R224 and R225). -/
theorem raise_faultsAgree {s : State} (hr : s.reports = []) (c : Cause) : (s.raise c).faultsAgree := by
  have hip : (faultRecord c s.ip).ip.isSome = true ↔ c.phase = .runtime := by
    cases h : c.phase <;> simp [faultRecord, h]
  exact ⟨raise_status s c, rfl, rfl, hip, by rw [raise_reports, hr]; rfl⟩

/-- An execute phase raises at most one fault, so from RUNNING it keeps the agreement, however it ends. -/
theorem exec_keeps_faultsAgree {i : Instr} {s t : State} (hrun : s.status = .running) (h : s.faultsAgree)
    (he : exec i s = .next t) : t.faultsAgree := by
  obtain ⟨hfault, hreports⟩ := (faultsAgree_iff_of_not_faulted (by simp [hrun])).1 h
  rcases exec_ended he with ⟨c, rfl, _⟩ | ⟨_, _, _, _, _, _, _, rfl⟩ | ⟨rfl, _⟩
  · exact raise_faultsAgree hreports c
  · exact raise_faultsAgree hreports _
  · obtain ⟨-, hf, hr, -, hst, -⟩ := effect_frame i s
    have hlive : (effect i s).status ≠ .faulted := by rw [hst, hrun]; split <;> simp
    exact (faultsAgree_iff_of_not_faulted hlive).2 ⟨hf.trans hfault, hr.trans hreports⟩

/-! ### Sound states -/

theorem construct_inv {p : Params} (h : p.valid = true) (oracle : List (List Byte)) :
    (State.construct p oracle).Inv :=
  ⟨h, ⟨rfl, fun _ _ => rfl, rfl, fun _ _ => rfl⟩, ⟨by simp [State.construct], rfl⟩, by simp [State.construct]⟩

/-- The start of a step drops a pending read and touches nothing else that soundness speaks of (rule R101). -/
theorem beginStep_inv {s : State} (h : s.Inv) : s.beginStep.Inv := by
  obtain ⟨hv, hst, hf, -⟩ := h
  exact ⟨hv, hst, hf, by simp⟩

theorem raise_inv {s : State} (h : s.Inv) (hrun : s.status = .running) (hnone : s.pendingRead = none) {c : Cause}
    (hc : c.phase = .runtime) : (s.raise c).Inv := by
  obtain ⟨hst, hf⟩ := (inv_iff s).1 h
  obtain ⟨-, hreports⟩ := (faultsAgree_iff_of_not_faulted (by simp [hrun])).1 hf
  exact (inv_iff _).2 ⟨storage_kept.raise s c hst hnone hc, raise_faultsAgree hreports c⟩

/-- The advance writes `ip`, which every machine has (rule R106). -/
theorem advance_inv {s : State} (h : s.Inv) (a : Word) : (s.advance a).Inv := by
  rcases advance_cases s a with e | ⟨-, -, -, e⟩
  · rwa [e]
  · obtain ⟨hv, hst, hf, hp⟩ := h
    have hip : regIp < s.cfg.nReg := by have := five_le_nReg hv; unfold regIp; omega
    rw [e]
    exact ⟨hv, setReg_stored (a + BitVec.ofNat 32 insnSize) hst hip, hf, hp⟩

theorem exec_inv {i : Instr} {s t : State} (h : s.Inv) (hrun : s.status = .running) (hnone : s.pendingRead = none)
    (he : exec i s = .next t) : t.Inv := by
  obtain ⟨hst, hf⟩ := (inv_iff s).1 h
  obtain ⟨u, hu, hkept⟩ := exec_keeps storage_kept i s hst (five_le_nReg hst.1) hrun hnone
  obtain rfl : u = t := by simpa [hu] using he
  exact (inv_iff u).2 ⟨hkept, exec_keeps_faultsAgree hrun hf he⟩

/-- Settles O48: construction with valid parameters gives a sound state, and rule R7's defaults are valid. -/
theorem resetIsSound : Obligations.ResetIsSound := by
  have hvalid : defaultParams.valid = true := by decide
  exact ⟨construct_inv hvalid [], if_pos hvalid⟩

/-- Settles O47, by what a step can do: nothing outside RUNNING; a fault of the fetch or of the decode; or an execute
phase and the advance. -/
theorem stepsKeepTheInvariant : Obligations.StepsKeepTheInvariant := by
  intro s t h hstep
  have hbegin := beginStep_inv h
  rcases step_cases hstep with ⟨-, rfl⟩ | ⟨hrun, -, ⟨-, rfl⟩ | ⟨-, rfl⟩ | ⟨i, u, -, hexec, rfl⟩⟩
  · exact h
  · exact raise_inv hbegin hrun rfl rfl
  · exact raise_inv hbegin hrun rfl rfl
  · exact advance_inv (exec_inv hbegin hrun rfl hexec) s.ip

end Sys2Proof.Machine
end

section
/-! PROOF. The state (`10_state.md`): the flags, `ip_written`, the status and the fault record, `program_size`, and
the state that construction and a load leave. -/

namespace Sys2Proof.Machine

/-! ### The register fields (rules R25 and R104) -/

/-- The register check names the first field, in field order, that is no register (rule R25). -/
theorem firstCause_checkRegs (s : State) (rs : List RegIdx) :
    firstCause (s.checkRegs rs) =
      (rs.find? fun x => decide (s.cfg.nReg ≤ x.toNat)).map Cause.registerOutOfRange := by
  induction rs with
  | nil => rfl
  | cons r rs ih =>
    rw [State.checkRegs] at ih
    by_cases hr : r.toNat < s.cfg.nReg
    · have hle : ¬ s.cfg.nReg ≤ r.toNat := by omega
      simp [State.checkRegs, checkReg_ok hr, hle, ih]
    · have hle : s.cfg.nReg ≤ r.toNat := by omega
      simp [State.checkRegs, State.checkReg, hr, hle]

/-- Every instruction checks its register fields before it does or checks anything else (rule R104). -/
theorem exec_checks_regFields (i : Instr) (s : State) :
    ∃ more rest, exec i s = s.checked (s.checkRegs i.regFields ++ more) rest := by
  cases i with
  | mget | mset | call | callr | push | pop | dout | din | udiv | umod => exact ⟨[_], _, rfl⟩
  | _ => exact ⟨[], _, rfl⟩

/-- Settles O14: the register check comes first, and names the first field that is no register. -/
theorem registerFieldsAreCheckedFirst : Obligations.RegisterFieldsAreCheckedFirst := by
  intro i s r hfirst
  obtain ⟨more, rest, hexec⟩ := exec_checks_regFields i s
  have hcause : firstCause (s.checkRegs i.regFields ++ more) = some (.registerOutOfRange r) := by
    rw [firstCause_append, firstCause_checkRegs, hfirst]; rfl
  exact ⟨_, hexec.trans (checked_some s rest hcause), raises_raise s _ rfl⟩

/-! ### The flags (rules R32 to R34) -/

/-- Replacing one bit of a word (rule R34). A bit number past 31 is no bit of the word. -/
theorem getLsbD_setBit (w : Word) {b : Nat} (hb : b < 32) (v : Bool) (c : Nat) :
    (setBit w b v).getLsbD c = if c = b then v else w.getLsbD c := by
  by_cases hc : c < 32
  · rcases lt_trichotomy c b with h | rfl | h
    · simp [setBit, hc, h, h.ne]
    · cases v <;> simp [setBit, hc]
    · have hpos : c - b ≠ 0 := by omega
      cases v <;> simp [setBit, hc, h.ne', hpos]
  · have hne : c ≠ b := by omega
    rw [if_neg hne, BitVec.getLsbD_of_ge _ _ (by omega), BitVec.getLsbD_of_ge _ _ (by omega)]

@[simp] theorem setFlag_fl (s : State) (b : Nat) (v : Bool) : (s.setFlag b v).fl = setBit s.fl b v := by
  simp [State.setFlag, State.fl]

/-- Settles O25: `fl` is written alone, and with one bit replaced. -/
theorem setFlagChangesOneBit : Obligations.SetFlagChangesOneBit := by
  intro s b v hb
  refine ⟨fun c _ => ?_, fun r hr => ?_, fun _ => rfl⟩
  · rw [State.getFlag, setFlag_fl, getLsbD_setBit _ hb, State.getFlag]
  · exact (setReg_reg s regFl r _).trans (if_neg hr)

/-- A register that an instruction writes is one that its fields name, or is written by the instruction's own rule:
`ip`, `sp`, and `fl` by a comparison (rules R33 and R107). -/
theorem written_by_field_or_rule {i : Instr} {s : State} {r : Nat} (h : r ∈ writesOf i s) :
    (∃ x ∈ i.regFields, x.toNat = r) ∨ r = regIp ∨ r = regSp ∨
      (r = regFl ∧ (i.opcode = .teq ∨ i.opcode = .tgt ∨ i.opcode = .tlt)) := by
  cases i with
  | mset | dout | halt => simp [writesOf] at h
  | teq | tgt | tlt =>
    exact .inr (.inr (.inr ⟨by simpa [writesOf] using h, by simp [Instr.opcode]⟩))
  | cjmp | cjmpr =>
    have hip : s.getFlag testBit = true ∧ r = regIp := by simpa [writesOf] using h
    exact .inr (.inl hip.2)
  | call | callr =>
    have hboth : r = regSp ∨ r = regIp := by simpa [writesOf] using h
    exact .inr (hboth.symm.imp_right .inl)
  | push => exact .inr (.inr (.inl (by simpa [writesOf] using h)))
  | pop dst =>
    have hboth : r = regSp ∨ r = dst.toNat := by simpa [writesOf] using h
    rcases hboth with hsp | hdst
    · exact .inr (.inr (.inl hsp))
    · exact .inl ⟨dst, by simp [Instr.regFields], hdst.symm⟩
  | sbit dst idx =>
    have hdst : idx.toNat < 32 ∧ r = dst.toNat := by simpa [writesOf] using h
    exact .inl ⟨dst, by simp [Instr.regFields], hdst.2.symm⟩
  | din _ dst =>
    have hdst : s.answers ≠ [] ∧ r = dst.toNat := by simpa [writesOf] using h
    exact .inl ⟨dst, by simp [Instr.regFields], hdst.2.symm⟩
  | mov _ dst | imm _ dst | mget _ dst | gbit _ dst _ | shr _ dst _ | shl _ dst _ | inc dst | dec dst
  | uadd _ _ dst | usub _ _ dst | umul _ _ dst | udiv _ _ dst | umod _ _ dst =>
    have hdst : r = dst.toNat := by simpa [writesOf] using h
    exact .inl ⟨dst, by simp [Instr.regFields], hdst.symm⟩

/-- A comparison touches one bit of `fl` when it completes, whatever it compares (rule R140). -/
theorem effect_of_comparison {i : Instr} (h : i.opcode = .teq ∨ i.opcode = .tgt ∨ i.opcode = .tlt) (s : State) :
    ∃ v, effect i s = s.setFlag testBit v := by
  cases i with
  | teq | tgt | tlt => exact ⟨_, rfl⟩
  | _ => simp [Instr.opcode] at h

/-- Settles O43: a fault leaves `fl` alone; a completed comparison replaces TEST; and of the other instructions only
one with `fl` among its fields writes `fl`. -/
theorem flagsChangeOnlyAsListed : Obligations.FlagsChangeOnlyAsListed := by
  intro i s t h hne
  have hwritten : 4 ∈ writesOf i s := by
    by_contra hout
    exact hne (onlyWrittenRegistersChange i s t h regFl hout)
  split
  · next hcmp =>
    intro b hb
    rcases exec_ended h with ⟨c, rfl, _⟩ | ⟨_, _, _, _, _, _, _, rfl⟩ | ⟨rfl, _⟩
    · rfl
    · rfl
    · obtain ⟨v, hv⟩ := effect_of_comparison hcmp s
      have hb0 : b ≠ testBit := by unfold testBit; omega
      rw [hv, setFlag_fl, getLsbD_setBit _ (by decide), if_neg hb0]
  · next hcmp =>
    refine ⟨hwritten, ?_⟩
    rcases written_by_field_or_rule hwritten with ⟨x, hx, hx4⟩ | hip | hsp | ⟨_, h⟩
    · rwa [show (4#16) = x from BitVec.eq_of_toNat_eq hx4.symm]
    · cases hip
    · cases hsp
    · exact absurd h hcmp

/-! ### `ip_written` (rules R38 and R107) -/

/-- Settles O10: an instruction that does not fault has its completed effect, which sets `ip_written` exactly if it
writes register 0. -/
theorem everyIpWriteSetsIpWritten : Obligations.EveryIpWriteSetsIpWritten := by
  intro i s t hclear _ h hlive
  rcases exec_ended h with ⟨c, rfl, _⟩ | ⟨_, _, _, _, _, _, _, rfl⟩ | ⟨rfl, _⟩
  · exact absurd (raise_status s c) hlive
  · exact absurd (raise_status _ _) hlive
  · obtain ⟨-, -, -, -, -, hip, -⟩ := effect_frame i s
    simp [hip, hclear]

/-! ### The status and the fault record (rule R36) -/

/-- Settles O44, by what a step can do: a raised fault ends in FAULTED with a record, and a completed instruction
leaves the record and the reports alone, and the status too unless it is `halt`. -/
theorem statusChangesOnlyAsListed : Obligations.StatusChangesOnlyAsListed := by
  intro s t hstep
  rcases step_cases hstep with ⟨-, rfl⟩ | ⟨hrun, -, ⟨-, rfl⟩ | ⟨-, rfl⟩ | ⟨i, u, hdecode, hexec, rfl⟩⟩
  · exact .inl ⟨rfl, rfl, rfl⟩
  · exact .inr (.inr ⟨hrun, raise_status _ _, rfl⟩)
  · exact .inr (.inr ⟨hrun, raise_status _ _, rfl⟩)
  · rw [advance_status, advance_fault, advance_reports]
    rcases exec_ended hexec with ⟨c, rfl, _⟩ | ⟨_, _, _, _, _, _, _, rfl⟩ | ⟨rfl, _⟩
    · exact .inr (.inr ⟨hrun, raise_status _ _, rfl⟩)
    · exact .inr (.inr ⟨hrun, raise_status _ _, rfl⟩)
    · obtain ⟨-, hfault, hreports, -, hstatus, -⟩ := effect_frame i s.beginStep
      by_cases hi : i = .halt
      · exact .inr (.inl ⟨hrun, by rw [hstatus, if_pos hi], hi ▸ hdecode, hfault, hreports⟩)
      · exact .inl ⟨by rw [hstatus, if_neg hi, beginStep_status], hfault, hreports⟩

/-- The record of a cause: `ip` stands in it for a runtime cause alone (rule R36). -/
theorem faultRecord_eq (c : Cause) (ip : Word) :
    faultRecord c ip = ⟨c.phase, c.severity, c, if c.phase = .runtime then some ip else none⟩ := by
  unfold faultRecord
  cases h : c.phase <;> simp

/-- Settles O16: the table of rule R222, row by row, and the record and report of a raised cause. -/
theorem causesAreClassified : Obligations.CausesAreClassified :=
  ⟨fun _ _ => ⟨rfl, rfl, rfl⟩, ⟨rfl, rfl, rfl⟩, fun _ => ⟨rfl, rfl, rfl⟩, fun _ => ⟨rfl, rfl, rfl⟩,
    fun _ _ => ⟨rfl, rfl, rfl⟩, ⟨rfl, rfl, rfl⟩, fun _ _ _ => ⟨rfl, rfl, rfl⟩,
    fun s c => ⟨by rw [raise_fault, faultRecord_eq], raise_reports s c, raise_status s c⟩, ⟨rfl, rfl, rfl⟩⟩

/-! ### What no step takes back (rules R20, R37, R250 and R256) -/

/-- From `s` to `t` the parameters and `program_size` stay, the logs only grow, and answers are only taken from the
front. -/
def KeepsHistory (s t : State) : Prop :=
  t.cfg = s.cfg ∧ t.programSize = s.programSize ∧ s.ioLog <+: t.ioLog ∧ s.reports <+: t.reports ∧
    t.answers <:+ s.answers

theorem raise_keepsHistory (s : State) (c : Cause) : KeepsHistory s (s.raise c) :=
  ⟨rfl, rfl, List.prefix_rfl, List.prefix_append _ _, List.suffix_rfl⟩

theorem ioAnswered_keepsHistory {s : State} {answer : List Byte} {later : List (List Byte)}
    (h : s.answers = answer :: later) (p n : Word) : KeepsHistory s (s.ioAnswered p n answer later) :=
  ⟨rfl, rfl, List.prefix_append _ _, List.prefix_rfl, h ▸ List.suffix_cons answer later⟩

/-- The I/O of a completed instruction: `dout` logs a write, `din` takes an answer or waits, all others do none. -/
theorem effect_io (i : Instr) (s : State) :
    s.ioLog <+: (effect i s).ioLog ∧ (effect i s).answers <:+ s.answers := by
  cases i with
  | dout sizereg => exact ⟨List.prefix_append _ _, List.suffix_rfl⟩
  | din sizereg recvreg =>
    simp only [effect]
    split
    · exact ⟨List.prefix_rfl, List.suffix_rfl⟩
    · next answer later h => exact ⟨List.prefix_append _ _, h ▸ List.suffix_cons answer later⟩
  | cjmp | cjmpr => simp only [effect, State.jumpIfTest]; split <;> exact ⟨List.prefix_rfl, List.suffix_rfl⟩
  | sbit => simp only [effect]; split <;> exact ⟨List.prefix_rfl, List.suffix_rfl⟩
  | _ => exact ⟨List.prefix_rfl, List.suffix_rfl⟩

theorem exec_keepsHistory {i : Instr} {s t : State} (h : exec i s = .next t) : KeepsHistory s t := by
  rcases exec_ended h with ⟨c, rfl, _⟩ | ⟨_, _, answer, later, _, hans, _, rfl⟩ | ⟨rfl, _⟩
  · exact raise_keepsHistory s c
  · obtain ⟨-, -, hlog, -, hleft⟩ := ioAnswered_keepsHistory hans s.dbport _
    exact ⟨rfl, rfl, hlog, List.prefix_append _ _, hleft⟩
  · obtain ⟨hcfg, -, hreports, hsize, -⟩ := effect_frame i s
    obtain ⟨hlog, hleft⟩ := effect_io i s
    exact ⟨hcfg, hsize, hlog, hreports ▸ List.prefix_rfl, hleft⟩

/-- Settles O45: the start of a step and the advance touch none of it, and a raised fault and an execute phase keep
it. -/
theorem stepsKeepParametersAndHistory : Obligations.StepsKeepParametersAndHistory := by
  intro s t hstep
  rcases step_cases hstep with ⟨-, rfl⟩ | ⟨-, -, ⟨-, rfl⟩ | ⟨-, rfl⟩ | ⟨i, u, -, hexec, rfl⟩⟩
  · exact ⟨rfl, rfl, List.prefix_rfl, List.prefix_rfl, List.suffix_rfl⟩
  · exact raise_keepsHistory s.beginStep _
  · exact raise_keepsHistory s.beginStep _
  · rw [advance_cfg, advance_programSize, advance_ioLog, advance_reports, advance_answers]
    exact exec_keepsHistory (s := s.beginStep) hexec

/-! ### Construction and load (rules R40, R41 and R251) -/

/-- Settles O51: construction is not refused, and lists no register and no byte. -/
theorem constructionClearsEverything : Obligations.ConstructionClearsEverything := by
  intro p oracle hvalid
  exact ⟨State.construct p oracle, if_pos hvalid, rfl, fun _ => rfl, fun _ => rfl, rfl, rfl, rfl, rfl⟩

theorem loadProgram_fits {s : State} {prog : List RawInstr} (hs : s.status = .empty)
    (hfit : programBytes prog ≤ s.cfg.memCapacity) : s.loadProgram prog = .next (s.loaded prog) := by
  simp [State.loadProgram, hs, hfit]

theorem loadProgram_tooLarge {s : State} {prog : List RawInstr} (hs : s.status = .empty)
    (hbig : s.cfg.memCapacity < programBytes prog) :
    s.loadProgram prog = .next (s.raise (.programTooLarge (programBytes prog) s.cfg.memCapacity)) := by
  simp [State.loadProgram, hs, not_le.2 hbig]

/-- A load that ends in READY is one of a program that fits (rule R251). -/
theorem loadProgram_ready {s t : State} {prog : List RawInstr} (h : s.loadProgram prog = .next t)
    (hready : t.status = .ready) : programBytes prog ≤ s.cfg.memCapacity ∧ t = s.loaded prog := by
  have hs : s.status = .empty := by
    by_contra hne
    unfold State.loadProgram at h
    split at h <;> simp_all
  rcases le_or_gt (programBytes prog) s.cfg.memCapacity with hfit | hbig
  · rw [loadProgram_fits hs hfit] at h
    exact ⟨hfit, by simpa using h.symm⟩
  · rw [loadProgram_tooLarge hs hbig] at h
    obtain rfl : s.raise _ = t := by simpa using h
    simp at hready

/-- Every register after a load (rule R41). -/
theorem loaded_reg (s : State) (prog : List RawInstr) (r : Nat) :
    (s.loaded prog).reg r =
      if r = regIp then 0 else if r = regSp then (s.loaded prog).programSize else s.reg r := by
  simp [State.loaded, State.reg]

theorem loaded_sp (s : State) (prog : List RawInstr) : (s.loaded prog).sp = (s.loaded prog).programSize :=
  loaded_reg s prog regSp

/-- The size of a program that fits is latched unreduced: memory ends at 2^32, which no 9 divides (rules R7, R37). -/
theorem loaded_programSize_toNat {s : State} {prog : List RawInstr} (hcfg : s.cfg.inRange = true)
    (hfit : programBytes prog ≤ s.cfg.memCapacity) : (s.loaded prog).programSize.toNat = 9 * prog.length := by
  obtain ⟨hcap, -⟩ : s.cfg.memCapacity ≤ 2 ^ 32 ∧ 5 ≤ s.cfg.spCount := by simpa [Params.inRange] using hcfg
  simp only [State.loaded, programBytes, insnSize, BitVec.toNat_ofNat] at hfit ⊢
  omega

/-- Instruction `j` of the image stands between the `9j` bytes before it and the rest (rule R251). -/
theorem programImage_split {prog : List RawInstr} {j : Nat} {r : RawInstr} (h : prog[j]? = some r) :
    ∃ before after, before.length = 9 * j ∧ programImage prog = before ++ encodeRaw r ++ after := by
  obtain ⟨hj, rfl⟩ := List.getElem?_eq_some_iff.1 h
  refine ⟨programImage (prog.take j), programImage (prog.drop (j + 1)), ?_, ?_⟩
  · rw [length_programImage, List.length_take, Nat.min_eq_left hj.le, insnSize]
  · calc programImage prog = programImage (prog.take j ++ prog[j] :: prog.drop (j + 1)) := by
          rw [← List.drop_eq_getElem_cons hj, List.take_append_drop]
      _ = programImage (prog.take j) ++ encodeRaw prog[j] ++ programImage (prog.drop (j + 1)) := by
          simp only [programImage, List.flatMap_append, List.flatMap_cons, List.append_assoc]

/-- The loaded program stands in memory, instruction by instruction (rule R41). -/
theorem loaded_instr_bytes (s : State) {prog : List RawInstr} {j : Nat} {r : RawInstr} (h : prog[j]? = some r) :
    readBytes (s.loaded prog).mem (9 * j) 9 = encodeRaw r := by
  obtain ⟨before, after, hlen, himage⟩ := programImage_split h
  have hread := readBytes_middle s.mem 0 before (encodeRaw r) after
  rwa [← himage, Nat.zero_add, hlen] at hread

/-- A load writes no byte past the program (rule R41). -/
theorem loaded_byte_outside (s : State) (prog : List RawInstr) {a : Nat} (h : 9 * prog.length ≤ a) :
    (s.loaded prog).byte a = s.byte a :=
  readByte_writeBytes_outside s.mem 0 a (programImage prog) (by rw [length_programImage, insnSize]; omega)

/-- Settles O52: what a load of a program that fits leaves, part by part. -/
theorem loadPlacesTheProgram : Obligations.LoadPlacesTheProgram := by
  intro s prog hcfg hs hfit
  have hsize := loaded_programSize_toNat hcfg hfit
  refine ⟨s.loaded prog, loadProgram_fits hs hfit, fun _ _ => loaded_instr_bytes s,
    fun _ => loaded_byte_outside s prog, hsize, by rw [loaded_sp, hsize], loaded_reg s prog regIp, ?_,
    rfl, rfl, rfl, rfl, rfl, rfl⟩
  exact fun r hip hsp => (loaded_reg s prog r).trans ((if_neg hip).trans (if_neg hsp))

/-- Settles O53: a program that does not fit raises its cause, which records no `ip`, and a raised cause writes no
register and no byte. -/
theorem tooLargeProgramsFault : Obligations.TooLargeProgramsFault := by
  intro s prog hs hbig
  exact ⟨_, loadProgram_tooLarge hs hbig, raise_status _ _, rfl, rfl, fun _ => rfl, fun _ => rfl, rfl⟩

/-! ### `program_size` is read by no step (rule R37) -/

/-- The state with another `program_size`. -/
def State.withSize (s : State) (p : Word) : State := { s with programSize := p }

/-- The outcome with another `program_size` in its next state. -/
def Out.withSize (p : Word) : Out → Out
  | .next t => .next (t.withSize p)
  | .fault r => .fault r
  | .refused r => .refused r

/-- Checks that raise alike and rests that differ in `program_size` alone give outcomes that do so. -/
theorem checked_withSize {s : State} {p : Word} {checks : List (Option Cause)} {rest rest' : Out}
    (h : rest' = Out.withSize p rest) :
    (s.withSize p).checked checks rest' = Out.withSize p (s.checked checks rest) := by
  subst h
  unfold State.checked
  cases firstCause checks <;> rfl

theorem jumpIfTest_withSize (s : State) (p target : Word) :
    (s.withSize p).jumpIfTest target = (s.jumpIfTest target).withSize p := by
  unfold State.jumpIfTest
  by_cases h : s.getFlag testBit = true
  · rw [if_pos h]; exact if_pos h
  · rw [if_neg h]; exact if_neg h

theorem dinTransfer_withSize (s : State) (p n : Word) (recvreg : RegIdx) :
    (s.withSize p).dinTransfer n recvreg = Out.withSize p (s.dinTransfer n recvreg) := by
  unfold State.dinTransfer
  rw [show (s.withSize p).answers = s.answers from rfl]
  cases s.answers with
  | nil => rfl
  | cons answer later => exact checked_withSize (s := s.ioAnswered s.dbport n answer later) rfl

/-- No instruction reads `program_size` (rule R37). -/
theorem exec_withSize (i : Instr) (s : State) (p : Word) :
    exec i (s.withSize p) = Out.withSize p (exec i s) := by
  cases i with
  | cjmp target => exact congrArg Host.Outcome.next (jumpIfTest_withSize s p target)
  | cjmpr reg => exact checked_withSize (congrArg Host.Outcome.next (jumpIfTest_withSize s p (s.get reg)))
  | sbit r idx v =>
    refine checked_withSize ?_
    by_cases h : idx.toNat < 32
    · rw [if_pos h, if_pos h]; rfl
    · rw [if_neg h, if_neg h]; rfl
  | din sizereg recvreg => exact checked_withSize (dinTransfer_withSize s p (s.get sizereg) recvreg)
  | halt => rfl
  | _ => exact checked_withSize rfl

theorem advance_withSize (s : State) (p a : Word) : (s.withSize p).advance a = (s.advance a).withSize p := by
  unfold State.advance
  by_cases h : s.status = .running ∧ s.ipWritten = false ∧ s.pendingRead = none
  · rw [if_pos h]; exact if_pos h
  · rw [if_neg h]; exact if_neg h

theorem runFetched_withSize (s : State) (p : Word) :
    (s.withSize p).runFetched exec = Out.withSize p (s.runFetched exec) := by
  unfold State.runFetched
  rw [show decodeInstr (s.withSize p).cfg.opcodes (s.withSize p).fetch = decodeInstr s.cfg.opcodes s.fetch from rfl]
  cases decodeInstr s.cfg.opcodes s.fetch with
  | none => rfl
  | some i =>
    simp only [exec_withSize]
    cases exec i s with
    | next t => exact congrArg Host.Outcome.next (advance_withSize t p s.ip)
    | fault r => rfl
    | refused r => rfl

/-- No step reads `program_size` (rule R37). -/
theorem step_withSize (s : State) (p : Word) : step (s.withSize p) = Out.withSize p (step s) := by
  by_cases hrun : s.status = .running
  · unfold step State.sequence
    rw [show (s.withSize p).status = s.status from rfl, hrun]
    by_cases hcfg : s.cfg.inRange = true
    · simp only [hcfg, if_true, show (s.withSize p).cfg = s.cfg from rfl]
      exact checked_withSize (s := s.beginStep) (runFetched_withSize s.beginStep p)
    · simp only [hcfg, show (s.withSize p).cfg = s.cfg from rfl]
      rfl
  · rw [step_stopped s hrun, step_stopped (s.withSize p) hrun]
    rfl

/-- Settles O46: the load latches the size and gives it to `sp`, and a step commutes with changing it. -/
theorem programSizeIsNeverRead : Obligations.ProgramSizeIsNeverRead := by
  refine ⟨fun s t prog hcfg hload hready => ?_, fun s t p hstep => ?_⟩
  · obtain ⟨hfit, rfl⟩ := loadProgram_ready hload hready
    exact ⟨loaded_programSize_toNat hcfg hfit, loaded_sp s prog⟩
  · exact (step_withSize s p).trans (by rw [hstep]; rfl)

end Sys2Proof.Machine
end

section
/-! PROOF. Memory accesses of any width (`20_memory.md` rules R53 and R54). -/

namespace Sys2Proof

/-- Byte `k` of a little-endian string is the digit of weight `256 ^ k`. -/
theorem leBytes_getD (n v k : Nat) (hk : k < n) : (leBytes n v).getD k 0 = BitVec.ofNat 8 (v / 256 ^ k) := by
  induction n generalizing v k with
  | zero => omega
  | succ n ih =>
    cases k with
    | zero => simp [leBytes]
    | succ k =>
      rw [leBytes, List.getD_cons_succ, ih (v / 256) k (by omega), Nat.div_div_eq_div_mul, pow_succ']

namespace Machine

theorem memRead_succ (m : Memory) (a n : Nat) :
    memRead m a (n + 1) = (readByte m a).toNat + 256 * memRead m (a + 1) n := rfl

/-- A read is little-endian: the byte at offset `k` has weight `256 ^ k` (rule R53). -/
theorem memRead_eq_sum (m : Memory) (a n : Nat) :
    memRead m a n = ((List.range n).map fun k => (readByte m (a + k)).toNat * 256 ^ k).sum := by
  induction n generalizing a with
  | zero => rfl
  | succ n ih =>
    have htail : 256 * ((List.range n).map fun k => (readByte m (a + 1 + k)).toNat * 256 ^ k).sum =
        ((List.range n).map fun k => (readByte m (a + (k + 1))).toNat * 256 ^ (k + 1)).sum := by
      rw [← List.sum_map_mul_left]
      refine congrArg List.sum (List.map_congr_left fun k _ => ?_)
      rw [show a + 1 + k = a + (k + 1) by omega]
      ring
    rw [memRead_succ, ih, htail, List.range_succ_eq_map]
    simp [Function.comp_def]

/-- A store is little-endian: offset `k` receives the digit of weight `256 ^ k` (rule R54). -/
theorem readByte_memWrite_inside (m : Memory) (a n v k : Nat) (hk : k < n) :
    readByte (memWrite m a n v) (a + k) = BitVec.ofNat 8 (v / 256 ^ k) := by
  rw [memWrite, readByte_writeBytes, if_pos (by simpa using hk), Nat.add_sub_cancel_left, leBytes_getD n v k hk]

theorem memRead_memWrite (m : Memory) (a n v : Nat) : memRead (memWrite m a n v) a n = v % 256 ^ n := by
  have hread : readBytes (memWrite m a n v) a n = leBytes n v := by
    simpa [memWrite] using readBytes_writeBytes m a (leBytes n v)
  rw [memRead, hread, leValue_leBytes]

/-- Settles O40: reads and stores byte by byte, the frame of a store, and the value read back. -/
theorem accessesAreLittleEndian : Obligations.AccessesAreLittleEndian := by
  refine fun m a n v => ⟨memRead_eq_sum m a n, fun k hk => ?_, fun x => readByte_memWrite_outside m a n v x,
    memRead_memWrite m a n v⟩
  rw [readByte_memWrite_inside m a n v k hk, BitVec.toNat_ofNat]

end Machine
end Sys2Proof
end

section
/-! PROOF. The instruction codec (`30_encoding.md`): the 9-byte format, the argument's fields, the opcode map, and the
fault of a byte outside it. -/

namespace Sys2Proof

/-! ### The 9-byte format (rules R71 to R73) -/

theorem rawOfWord_leValue_cons (b : Byte) (bs : List Byte) :
    rawOfWord (leValue (b :: bs)) = ⟨b, BitVec.ofNat 64 (leValue bs)⟩ := by
  have hb := b.isLt
  have hlow : BitVec.ofNat 8 (b.toNat + 256 * leValue bs) = b := by
    apply BitVec.eq_of_toNat_eq
    rw [BitVec.toNat_ofNat]
    omega
  have hhigh : (b.toNat + 256 * leValue bs) / 256 = leValue bs := by omega
  rw [leValue, rawOfWord, hlow, hhigh]

theorem rawOfWord_encodeRaw (r : RawInstr) : rawOfWord (leValue (encodeRaw r)) = r := by
  have harg : r.argument.toNat % 256 ^ 8 = r.argument.toNat := Nat.mod_eq_of_lt r.argument.isLt
  rw [encodeRaw, rawOfWord_leValue_cons, leValue_leBytes, harg, BitVec.ofNat_toNat, BitVec.setWidth_eq]

/-- The bytes of an argument are its 8-bit slices, from bit 0 up. -/
theorem leBytes_toNat (n : Nat) (arg : Argument) :
    leBytes n arg.toNat = (List.range n).map fun k => arg.extractLsb' (8 * k) 8 := by
  refine List.ext_getElem (by simp) fun k hk _ => ?_
  have hbyte := leBytes_getD n arg.toNat k (by simpa using hk)
  rw [List.getD_eq_getElem _ _ hk] at hbyte
  rw [hbyte, List.getElem_map, List.getElem_range, ← ofNat_div_mod, pow_mul]
  apply BitVec.eq_of_toNat_eq
  simp

/-- Settles O1: byte `k` of the argument is its slice from bit `8 * k`, and the argument is the value of the bytes
after the first. -/
theorem rawCodecIsLittleEndian : Obligations.RawCodecIsLittleEndian := by
  refine ⟨fun r => ?_, fun b0 b1 b2 b3 b4 b5 b6 b7 b8 => ?_, rawOfWord_encodeRaw⟩
  · rw [encodeRaw, leBytes_toNat]
    rfl
  · have hfits : leValue [b1, b2, b3, b4, b5, b6, b7, b8] < 2 ^ 64 :=
      (leValue_lt _).trans_eq (by simp)
    rw [rawOfWord_leValue_cons]
    refine ⟨rfl, ?_⟩
    rw [BitVec.toNat_ofNat, Nat.mod_eq_of_lt hfits]
    simp only [leValue]
    ring

/-! ### Fields (rules R74 and R75) -/

theorem length_decodeFields (ws : List Nat) (arg : Nat) : (decodeFields ws arg).length = ws.length := by
  induction ws generalizing arg with
  | nil => rfl
  | cons w ws ih => rw [decodeFields, List.length_cons, ih, List.length_cons]

theorem decodeFields_getD (ws : List Nat) (arg k : Nat) (hk : k < ws.length) :
    (decodeFields ws arg).getD k 0 = arg / 2 ^ (ws.take k).sum % 2 ^ ws.getD k 0 := by
  induction ws generalizing arg k with
  | nil => exact absurd hk (Nat.not_lt_zero k)
  | cons w ws ih =>
    cases k with
    | zero => simp [decodeFields]
    | succ k =>
      rw [decodeFields, List.getD_cons_succ, ih _ k (Nat.lt_of_succ_lt_succ hk), List.take_succ_cons, List.sum_cons,
        List.getD_cons_succ, Nat.div_div_eq_div_mul, pow_add]

/-- The fields do not see the bits above their widths. -/
theorem decodeFields_mod (ws : List Nat) (arg : Nat) : decodeFields ws (arg % 2 ^ ws.sum) = decodeFields ws arg := by
  induction ws generalizing arg with
  | nil => rfl
  | cons w ws ih =>
    rw [List.sum_cons, pow_add, decodeFields, Nat.mod_mul_right_mod, Nat.mod_mul_right_div_self, ih, decodeFields]

/-- Settles O2, by induction on the widths. -/
theorem fieldsAreContiguousBitRanges : Obligations.FieldsAreContiguousBitRanges :=
  fun ws arg => ⟨length_decodeFields ws arg.toNat, decodeFields_getD ws arg.toNat⟩

/-- Settles O3: the decoder sees the argument through its fields alone, and they keep only the bits below the sum of
the widths. -/
theorem ignoredArgumentBitsDoNothing : Obligations.IgnoredArgumentBitsDoNothing := by
  refine fun m b x y hagree => Option.map_congr fun op hop => congrArg (instrOf op) ?_
  rw [← decodeFields_mod _ x.toNat, hagree op hop, decodeFields_mod]

/-! ### Decoding undoes encoding (rules R73, R76 and R78) -/

/-- Every operand fits the width the opcode's format gives its field. -/
theorem fields_fit (i : Instr) : List.Forall₂ (fun w f => f < 2 ^ w) (fieldWidths i.opcode) i.fields := by
  cases i <;>
    simp only [fieldWidths, Instr.opcode, Opcode.format, Format.kinds, FieldKind.width, Instr.fields, List.map_cons,
      List.map_nil, List.forall₂_cons, List.Forall₂.nil, BitVec.isLt, and_self]

theorem instrOf_fields (i : Instr) : instrOf i.opcode i.fields = i := by
  cases i <;> simp [instrOf, Instr.opcode, Instr.fields]

theorem rawOf_argument_toNat (m : OpcodeMap) (i : Instr) :
    (rawOf m i).argument.toNat = packFields (fieldWidths i.opcode) i.fields := by
  have hfits : packFields (fieldWidths i.opcode) i.fields < 2 ^ 64 :=
    (packFields_lt _ _).trans_le (Nat.pow_le_pow_right Nat.two_pos (fieldWidths_sum_le i.opcode))
  rw [rawOf, BitVec.toNat_ofNat, Nat.mod_eq_of_lt hfits]

theorem decodeInstr_rawOf {m : OpcodeMap} (hm : m.bijective = true) (i : Instr) :
    decodeInstr m (rawOf m i) = some i := by
  have hop : opcodeOf m (rawOf m i).opcode = some i.opcode := opcodeOf_byteOf m hm i.opcode
  rw [decodeInstr, hop, Option.map_some, rawOf_argument_toNat, decodeFields_packFields _ _ (fields_fit i),
    instrOf_fields]

theorem decode_encodeRaw {m : OpcodeMap} {r : RawInstr} {i : Instr} (h : decodeInstr m r = some i) :
    decode m (encodeRaw r) = .ok i := by
  have hlen : (encodeRaw r).length = insnSize := by simp [encodeRaw, insnSize]
  rw [decode, if_pos hlen, rawOfWord_encodeRaw, h]

/-- Settles O4: the raw pair survives its bytes, the map finds the mnemonic again, and the packed fields come back. -/
theorem decodingUndoesEncoding : Obligations.DecodingUndoesEncoding :=
  fun _ hm i => decode_encodeRaw (decodeInstr_rawOf hm i)

/-! ### Unknown opcodes (rule R82) -/

theorem opcodeOf_eq_none_iff (m : OpcodeMap) (b : Byte) : opcodeOf m b = none ↔ b ∉ m.map Prod.snd := by
  rw [opcodeOf, Option.map_eq_none_iff, List.find?_eq_none]
  simp only [decide_eq_true_eq, List.mem_map, not_exists, not_and]

/-- The default map uses the bytes from 0x00 to 0x1A, in order (rule R81). -/
theorem defaultOpcodeMap_bytes : defaultOpcodeMap.map Prod.snd = (List.range 27).map (BitVec.ofNat 8) := rfl

theorem opcodeOf_default_eq_none_iff (b : Byte) : opcodeOf defaultOpcodeMap b = none ↔ 0x1B ≤ b.toNat := by
  rw [opcodeOf_eq_none_iff, defaultOpcodeMap_bytes, List.mem_map]
  constructor
  · intro hout
    by_contra hlt
    exact hout ⟨b.toNat, by simpa using hlt, by simp⟩
  · rintro hge ⟨n, hn, rfl⟩
    rw [List.mem_range] at hn
    rw [BitVec.toNat_ofNat] at hge
    omega

namespace Machine

theorem fetch_opcode (s : State) : s.fetch.opcode = s.byte s.ip.toNat := by
  rw [State.fetch, memRead, insnSize, readBytes, rawOfWord_leValue_cons, State.byte]

theorem decodeInstr_fetch_eq_none_iff (s : State) :
    decodeInstr s.cfg.opcodes s.fetch = none ↔ opcodeOf s.cfg.opcodes (s.byte s.ip.toNat) = none := by
  rw [decodeInstr, Option.map_eq_none_iff, fetch_opcode]

/-- Settles O5: the fetch is in bounds, so of the three things a RUNNING step can do only the fault of the decode is
left. -/
theorem unknownOpcodeBytesFault : Obligations.UnknownOpcodeBytesFault := by
  refine ⟨opcodeOf_default_eq_none_iff, fun s hrun hcfg hfits hunknown => ?_⟩
  have hnone := (decodeInstr_fetch_eq_none_iff s).2 hunknown
  rcases step_running s hrun hcfg with ⟨hout, _⟩ | ⟨_, _, hstep⟩ | ⟨_, i, hsome, _⟩
  · exact absurd hfits (Nat.not_le_of_lt hout)
  · rw [fetch_opcode] at hstep
    exact ⟨_, hstep, raises_raise _ _ rfl⟩
  · rw [hnone] at hsome
    cases hsome

end Machine

/-- Settles O6, by running the decoder on each word. -/
theorem writtenOutWordsDecode : Obligations.WrittenOutWordsDecode :=
  ⟨rfl, rfl, rfl, rfl, rfl, rfl, rfl, rfl, rfl⟩

end Sys2Proof
end

section
/-! PROOF. The execution loop (`40_execution_loop.md`): one step as fetch, decode, execute and advance; the runs that
have ended; and the steps of a `din` before and after its answer. -/

namespace Sys2Proof.Machine

/-! ### A step in RUNNING (rules R101 to R103) -/

/-- A fetch in bounds of bytes that decode leaves, of the three things a RUNNING step can do, only the execute phase
and the advance. -/
theorem step_of_decoded {s : State} {i : Instr} (hrun : s.status = .running) (hcfg : s.cfg.inRange = true)
    (hfits : s.ip.toNat + 9 ≤ s.cfg.memCapacity) (hdecode : decodeInstr s.cfg.opcodes s.fetch = some i) :
    step s = advanceOut s.ip (exec i s.beginStep) := by
  rcases step_running s hrun hcfg with ⟨hout, _⟩ | ⟨_, hnone, _⟩ | ⟨_, j, hj, hstep⟩
  · exact absurd hfits (Nat.not_le_of_lt hout)
  · rw [hdecode] at hnone
    cases hnone
  · rw [hdecode] at hj
    cases hj
    exact hstep

/-- Settles O7: the 9 bytes decode as the fetch does, and the advance follows whatever next state there is. -/
theorem stepRunsTheDecodedInstruction : Obligations.StepRunsTheDecodedInstruction := by
  intro s i hrun hcfg hfits hdecode
  rw [step_of_decoded hrun hcfg hfits ((decode_bytes_at_ip s i).1 hdecode)]
  unfold State.beginStep
  cases exec i { s with ipWritten := false, pendingRead := none } <;> rfl

/-- Settles O8: of the three things a RUNNING step can do, both others need a fetch in bounds. -/
theorem fetchPastTheEndFaults : Obligations.FetchPastTheEndFaults := by
  intro s hrun hcfg hout
  rcases step_running s hrun hcfg with ⟨_, hstep⟩ | ⟨hfits, _⟩ | ⟨hfits, _⟩
  · exact ⟨_, hstep, raises_raise _ _ rfl⟩
  · exact absurd hfits (Nat.not_le_of_lt hout)
  · exact absurd hfits (Nat.not_le_of_lt hout)

/-! ### The advance (rule R106) -/

theorem advance_reg_of_ne_ip (s : State) (a : Word) {r : Nat} (h : r ≠ regIp) : (s.advance a).reg r = s.reg r :=
  (advance_reg s a r).trans (if_neg fun hr => h hr.1)

/-- An instruction that wrote `ip` keeps its own value there: nothing is advanced. -/
theorem advance_of_ipWritten {s : State} (h : s.ipWritten = true) (a : Word) : s.advance a = s :=
  if_neg fun hall => by simp [h] at hall

/-- A run that has ended is not advanced. -/
theorem advance_of_not_running {s : State} (h : s.status ≠ .running) (a : Word) : s.advance a = s :=
  if_neg fun hall => h hall.1

/-- A `din` that waits is not advanced (rule R262). -/
theorem advance_of_pendingRead {s : State} (h : s.pendingRead ≠ none) (a : Word) : s.advance a = s :=
  if_neg fun hall => h hall.2.2

/-- A completed instruction that did not write `ip` goes on to the next address, modulo 2^32. -/
theorem advance_ip_toNat {s : State} (hrun : s.status = .running) (hw : s.ipWritten = false)
    (hp : s.pendingRead = none) (a : Word) : (s.advance a).ip.toNat = (a.toNat + 9) % 2 ^ 32 := by
  rw [State.ip, advance_reg, if_pos ⟨rfl, hrun, hw, hp⟩, BitVec.toNat_add, insnSize]
  rfl

/-- Settles O9: the step is the execute phase and the advance, which writes `ip` alone, and only if `ip_written`
is 0. -/
theorem advanceFollowsIpWritten : Obligations.AdvanceFollowsIpWritten := by
  intro s u i hrun hcfg hfits hdecode hexec hstill hp
  refine ⟨u.advance s.ip, ?_, fun hw => advance_ip_toNat hstill hw hp s.ip, fun hw => ?_,
    fun r => advance_reg_of_ne_ip u s.ip, advance_byte u s.ip⟩
  · rw [step_of_decoded hrun hcfg hfits hdecode, hexec]
    rfl
  · rw [advance_of_ipWritten hw]

/-! ### The end of a run (rules R109 and R110) -/

/-- Settles O12: the default map names `halt` by its byte alone, and a `halt` changes the status, so that the advance
does not follow. -/
theorem haltEndsTheRun : Obligations.HaltEndsTheRun := by
  refine ⟨fun _ => rfl, fun _ => exec_halt, fun s hrun hcfg hfits hdecode => ?_⟩
  refine ⟨{ s.beginStep with status := .halted }, ?_, rfl, rfl, fun _ => rfl, fun _ => rfl, rfl, rfl, rfl⟩
  rw [step_of_decoded hrun hcfg hfits hdecode, exec_halt, advanceOut, advance_of_not_running (by simp)]

/-- A state that one step leaves as it is stays so for any number of steps. -/
theorem run_of_step_eq_self (M : Host.Core) {s : M.State} (h : M.step s = .next s) (k : Nat) : M.run k s = .next s := by
  induction k with
  | zero => rfl
  | succ k ih => rw [Host.Core.run, h]; exact ih

/-- Settles O11: outside RUNNING a step changes nothing. -/
theorem endedRunsStayAsTheyAre : Obligations.EndedRunsStayAsTheyAre := by
  intro s hended
  have hstop : s.status ≠ .running := by rcases hended with h | h <;> simp [h]
  exact run_of_step_eq_self Sys2Proof.core (step_stopped s hstop)

/-! ### Sound states step (rules R7, R100 and R224) -/

/-- Settles O49: a sound state has sizes that rule R7 allows, so a RUNNING step faults or runs an instruction, and
every instruction answers a next state. -/
theorem soundStatesAlwaysStep : Obligations.SoundStatesAlwaysStep := by
  intro s h
  by_cases hrun : s.status = .running
  · obtain ⟨hstorage, -⟩ := (inv_iff _).1 (beginStep_inv h)
    obtain ⟨hvalid, -⟩ := h
    have hcfg : s.cfg.inRange = true := (Bool.and_eq_true_iff.1 hvalid).1
    rcases step_running s hrun hcfg with ⟨-, hstep⟩ | ⟨-, -, hstep⟩ | ⟨-, i, -, hstep⟩
    · exact ⟨_, hstep⟩
    · exact ⟨_, hstep⟩
    · obtain ⟨u, hexec, -⟩ := exec_keeps storage_kept i s.beginStep hstorage (five_le_nReg hvalid) hrun rfl
      exact ⟨u.advance s.ip, by rw [hstep, hexec]; rfl⟩
  · exact ⟨s, step_stopped s hrun⟩

/-! ### The steps of a `din` (rules R203, R204 and R262) -/

/-- The next step from `s` runs a `din` whose checks all pass. Neither `ip_written`, nor a pending read, nor the
answers to come have a part in it. -/
structure State.AtDin (s : State) (sizereg recvreg : RegIdx) : Prop where
  running : s.status = .running
  inRange : s.cfg.inRange = true
  fits : s.ip.toNat + 9 ≤ s.cfg.memCapacity
  decodes : decodeInstr s.cfg.opcodes s.fetch = some (.din sizereg recvreg)
  registers : s.has [sizereg, recvreg]
  buffer : s.dbdata.toNat + (s.reg sizereg.toNat).toNat ≤ s.cfg.memCapacity

/-- The bytes of a stored string, beside `setBytes_byte_outside` (rule R203). -/
theorem setBytes_byte_inside (s : State) (a : Nat) {bs : List Byte} {k : Nat} (hk : k < bs.length) :
    (s.setBytes a bs).byte (a + k) = bs.getD k 0 := by
  rw [State.byte, setBytes_mem, readByte_writeBytes, if_pos (by omega), Nat.add_sub_cancel_left]

/-- The state in which a `din` has stored an answer and its length, before the advance (rule R203). -/
def State.received (s : State) (n : Word) (recvreg : RegIdx) (answer : List Byte) (later : List (List Byte)) : State :=
  ((s.ioAnswered s.dbport n answer later).setBytes s.dbdata.toNat answer).setReg recvreg.toNat
    (BitVec.ofNat 32 answer.length)

section
variable (s : State) (n : Word) (recvreg : RegIdx) (answer : List Byte) (later : List (List Byte))

@[simp] theorem received_ipWritten :
    (s.received n recvreg answer later).ipWritten = (s.ipWritten || decide (recvreg.toNat = regIp)) := rfl

theorem received_reg (r : Nat) :
    (s.received n recvreg answer later).reg r =
      if r = recvreg.toNat then BitVec.ofNat 32 answer.length else s.reg r := setReg_reg _ _ _ _

/-- The count is in its register after the advance too: a count that went to `ip` stays there (rule R107). -/
theorem received_advance_recvreg (a : Word) :
    ((s.received n recvreg answer later).advance a).reg recvreg.toNat = BitVec.ofNat 32 answer.length := by
  have hcount := (received_reg s n recvreg answer later recvreg.toNat).trans (if_pos rfl)
  by_cases hr : recvreg.toNat = regIp
  · rw [advance_of_ipWritten (by simp [hr]), hcount]
  · rw [advance_reg_of_ne_ip _ _ hr, hcount]

end

section
variable {s : State} {sizereg recvreg : RegIdx} {answer : List Byte} {later : List (List Byte)}

/-- Such a step is the transfer and the advance. -/
theorem State.AtDin.step_eq (h : s.AtDin sizereg recvreg) :
    step s = advanceOut s.ip (s.beginStep.dinTransfer (s.reg sizereg.toNat) recvreg) := by
  rw [step_of_decoded h.running h.inRange h.fits h.decodes, exec_din (s := s.beginStep) h.registers h.buffer]
  rfl

/-- With no answer to take, the `din` waits (rule R262). -/
theorem State.AtDin.step_waits (h : s.AtDin sizereg recvreg) (hans : s.answers = []) :
    step s = .next (s.beginStep.ioWaits s.dbport (s.reg sizereg.toNat)) := by
  rw [h.step_eq, dinTransfer_waits (s := s.beginStep) hans, advanceOut, advance_of_pendingRead (by simp)]
  rfl

/-- With an answer no longer than asked for, it completes (rule R203). -/
theorem State.AtDin.step_receives (h : s.AtDin sizereg recvreg) (hans : s.answers = answer :: later)
    (hlen : answer.length ≤ (s.reg sizereg.toNat).toNat) :
    step s = .next ((s.beginStep.received (s.reg sizereg.toNat) recvreg answer later).advance s.ip) := by
  rw [h.step_eq, dinTransfer_stores (s := s.beginStep) hans hlen]
  rfl

/-- With a longer one it faults, and the read stays on record (rule R204). -/
theorem State.AtDin.step_faults (h : s.AtDin sizereg recvreg) (hans : s.answers = answer :: later)
    (hlen : (s.reg sizereg.toNat).toNat < answer.length) :
    step s = .next ((s.beginStep.ioAnswered s.dbport (s.reg sizereg.toNat) answer later).raise
      (.ioContractViolation s.dbport (s.reg sizereg.toNat) answer.length)) := by
  rw [h.step_eq, dinTransfer_faults (s := s.beginStep) hans hlen, advanceOut, advance_of_not_running (by simp)]
  rfl

end

/-! ### The host's answer (rules R100 and R261) -/

theorem answerRead_of_pending {s : State} (h : s.pendingRead.isSome = true) (answer : List Byte) :
    s.answerRead answer = .next { s with answers := s.answers ++ [answer] } := by
  obtain ⟨request, hrequest⟩ := Option.isSome_iff_exists.1 h
  rw [State.answerRead, hrequest]

theorem answerRead_of_none {s : State} (h : s.pendingRead = none) (answer : List Byte) :
    s.answerRead answer = .refused .noPendingRead := by
  rw [State.answerRead, h]

/-- The state in which a `din` from `s` has waited and its answer has come: nothing else happens meanwhile. -/
def State.answeredWait (s : State) (n : Word) (answer : List Byte) : State :=
  { s.beginStep.ioWaits s.dbport n with answers := s.answers ++ [answer] }

section
variable {s : State} {sizereg recvreg : RegIdx} {answer : List Byte}

/-- The next step runs the same `din` again (rule R262). -/
theorem State.AtDin.after_answer (h : s.AtDin sizereg recvreg) (n : Word) (answer : List Byte) :
    (s.answeredWait n answer).AtDin sizereg recvreg :=
  ⟨h.running, h.inRange, h.fits, h.decodes, h.registers, h.buffer⟩

theorem answeredWait_answers (hnone : s.answers = []) (n : Word) (answer : List Byte) :
    (s.answeredWait n answer).answers = answer :: [] := by
  rw [State.answeredWait, hnone]
  rfl

/-- A `din` that has waited completes as one that found its answer does. -/
theorem State.AtDin.answered_receives (h : s.AtDin sizereg recvreg) (hnone : s.answers = [])
    (hlen : answer.length ≤ (s.reg sizereg.toNat).toNat) :
    step (s.answeredWait (s.reg sizereg.toNat) answer) =
      .next ((s.beginStep.received (s.reg sizereg.toNat) recvreg answer []).advance s.ip) :=
  (h.after_answer _ answer).step_receives (answeredWait_answers hnone _ answer) hlen

/-- And it faults as one that found its answer does. -/
theorem State.AtDin.answered_faults (h : s.AtDin sizereg recvreg) (hnone : s.answers = [])
    (hlong : (s.reg sizereg.toNat).toNat < answer.length) :
    step (s.answeredWait (s.reg sizereg.toNat) answer) =
      .next ((s.beginStep.ioAnswered s.dbport (s.reg sizereg.toNat) answer []).raise
        (.ioContractViolation s.dbport (s.reg sizereg.toNat) answer.length)) :=
  (h.after_answer _ answer).step_faults (answeredWait_answers hnone _ answer) hlong

end

/-- Settles O56: the `din` waits, the host answers, and the step after that runs the `din` again from the state it
waited in, to its completion or to the fault of rule R204. -/
theorem anAnswerEndsTheWait : Obligations.AnAnswerEndsTheWait := by
  refine ⟨fun s answer => ⟨fun h => answerRead_of_pending h answer, fun h => answerRead_of_none h answer⟩, ?_⟩
  rintro s sizereg recvreg _ answer hrun hcfg hfits hdecode hhas rfl hbuffer hnone
  have hdin : s.AtDin sizereg recvreg := ⟨hrun, hcfg, hfits, hdecode, hhas, hbuffer⟩
  have hanswer : (s.beginStep.ioWaits s.dbport (s.reg sizereg.toNat)).answerRead answer =
      .next (s.answeredWait (s.reg sizereg.toNat) answer) := answerRead_of_pending rfl answer
  rcases le_or_gt answer.length (s.reg sizereg.toNat).toNat with hlen | hlong
  · refine ⟨_, _, _, hdin.step_waits hnone, hanswer, hdin.answered_receives hnone hlen, advance_pendingRead _ _,
      advance_answers _ _, advance_ioLog _ _, advance_cfg _ _, advance_programSize _ _, fun _ => ?_,
      fun hlong => absurd hlen (Nat.not_le_of_lt hlong)⟩
    refine ⟨(advance_status _ _).trans hrun, advance_fault _ _, advance_reports _ _, ?_, fun hr => ?_,
      fun r hip hr => ?_, fun k hk => ?_, fun a ha => ?_⟩
    · have hcount : answer.length < 2 ^ 32 := hlen.trans_lt (BitVec.isLt _)
      rw [received_advance_recvreg, BitVec.toNat_ofNat, Nat.mod_eq_of_lt hcount]
    · refine advance_ip_toNat ?_ (decide_eq_false hr) rfl s.ip
      exact hrun
    · rw [advance_reg_of_ne_ip _ _ hip, received_reg, if_neg hr, beginStep_reg]
    · rw [advance_byte]
      exact setBytes_byte_inside _ _ hk
    · rw [advance_byte]
      exact setBytes_byte_outside _ _ _ _ ha
  · exact ⟨_, _, _, hdin.step_waits hnone, hanswer, hdin.answered_faults hnone hlong, rfl, rfl, rfl, rfl, rfl,
      fun hlen => absurd hlong (Nat.not_lt_of_le hlen), fun _ => raises_raise _ _ rfl⟩

end Sys2Proof.Machine
end

section
/-! PROOF. Moves, loads and stores (`41_move_memory.md`), and the lemmas that every instruction of their formats shares:
the bits an operand is decoded from, and the fault of an access out of bounds. -/

namespace Sys2Proof

/-! ### Operands of a decoded argument (rules R74 and R77) -/

/-- A field of its own width is the bits of the argument from the sum of the widths before it. -/
theorem fieldAt_decodeFields (ws : List Nat) (arg : Argument) {k : Nat} (hk : k < ws.length) :
    fieldAt (ws.getD k 0) (decodeFields ws arg.toNat) k = arg.extractLsb' (ws.take k).sum (ws.getD k 0) := by
  rw [fieldAt, decodeFields_getD ws arg.toNat k hk, ofNat_div_mod]

theorem decodeInstr_of_opcodeOf {m : OpcodeMap} {b : Byte} {op : Opcode} (h : opcodeOf m b = some op)
    (arg : Argument) : decodeInstr m ⟨b, arg⟩ = some (instrOf op (decodeFields (fieldWidths op) arg.toNat)) := by
  rw [decodeInstr, h, Option.map_some]

/-- The formats of two fields, FRR and FIR: the first from bit 0, the second after it (rule R77). -/
theorem decodeInstr_two_fields {w₁ w₂ : Nat} {mk : BitVec w₁ → BitVec w₂ → Instr} {m : OpcodeMap} {b : Byte}
    {op : Opcode} (hop : opcodeOf m b = some op) (hwidths : fieldWidths op = [w₁, w₂])
    (hmk : ∀ f, instrOf op f = mk (fieldAt w₁ f 0) (fieldAt w₂ f 1)) (arg : Argument) :
    decodeInstr m ⟨b, arg⟩ = some (mk (arg.extractLsb' 0 w₁) (arg.extractLsb' w₁ w₂)) := by
  have hfirst := fieldAt_decodeFields [w₁, w₂] arg Nat.two_pos
  have hsecond := fieldAt_decodeFields [w₁, w₂] arg Nat.one_lt_two
  rw [decodeInstr_of_opcodeOf hop, hmk, hwidths]
  exact congrArg some (congrArg₂ mk hfirst hsecond)

namespace Machine

/-! ### Register writes and faulting accesses (rules R58 and R224) -/

theorem setReg_reg_same (s : State) (r : Nat) (v : Word) : (s.setReg r v).reg r = v := by
  rw [setReg_reg, if_pos rfl]

/-- An access out of bounds by an instruction whose registers exist raises its fault and does nothing else. -/
theorem checked_memoryOutOfBounds {s : State} {rs : List RegIdx} {a : Word} {n : Nat} (h : s.has rs)
    (hm : s.cfg.memCapacity < a.toNat + n) (rest : Out) :
    ∃ t, s.checked (s.checkRegs rs ++ [s.checkMem a n]) rest = .next t ∧ Raises s t (.memoryOutOfBounds a n) := by
  have hcause : firstCause (s.checkRegs rs ++ [s.checkMem a n]) = some (.memoryOutOfBounds a n) := by
    rw [checkRegs_ok h, checkMem_bad hm, firstCause_some]
  exact ⟨_, checked_some s rest hcause, raises_raise s _ rfl⟩

/-! ### The four instructions (rules R130 to R133) -/

/-- Settles O17: the next state is one register write. -/
theorem movCopiesARegister : Obligations.MovCopiesARegister :=
  ⟨decodeInstr_two_fields (op := .mov) rfl rfl fun _ => rfl, fun s _ dst hregs =>
    ⟨_, exec_mov hregs, setReg_reg_same s dst.toNat _, frame_setReg s dst.toNat _⟩⟩

/-- Settles O18: the next state is one register write. -/
theorem immLoadsItsField : Obligations.ImmLoadsItsField :=
  ⟨decodeInstr_two_fields (op := .imm) rfl rfl fun _ => rfl, fun s val dst hregs =>
    ⟨_, exec_imm hregs, setReg_reg_same s dst.toNat val, frame_setReg s dst.toNat val⟩⟩

/-- Settles O19: in bounds the next state is one register write, of the word at the address, which is its four bytes;
out of bounds the memory check raises. -/
theorem mgetLoadsALittleEndianWord : Obligations.MgetLoadsALittleEndianWord := by
  refine ⟨decodeInstr_two_fields (op := .mget) rfl rfl fun _ => rfl, ?_⟩
  rintro s addr dst _ hregs rfl
  refine ⟨fun hfits => ⟨_, exec_mget hregs hfits, ?_, frame_setReg s dst.toNat _⟩,
    fun hout => checked_memoryOutOfBounds hregs hout _⟩
  rw [setReg_reg_same, word_toNat]

/-- Settles O20: in bounds the next state is one store of a word; out of bounds the memory check raises. -/
theorem msetStoresALittleEndianWord : Obligations.MsetStoresALittleEndianWord := by
  refine ⟨decodeInstr_two_fields (op := .mset) rfl rfl fun _ => rfl, ?_⟩
  rintro s addr src _ hregs rfl
  exact ⟨fun hfits => ⟨_, exec_mset hregs hfits, setWord_byte s _ _, frame_setWord s _ _⟩,
    fun hout => checked_memoryOutOfBounds hregs hout _⟩

end Machine
end Sys2Proof
end

section
/-! PROOF. Comparisons, jumps and calls (`42_compare_control.md`), and the return from a call by `pop %ip`
(`45_stack.md` rule R191). -/

namespace Sys2Proof

/-- The formats of one field, FR and FI: the field from bit 0 (rule R77). -/
theorem decodeInstr_one_field {w : Nat} {mk : BitVec w → Instr} {m : OpcodeMap} {b : Byte} {op : Opcode}
    (hop : opcodeOf m b = some op) (hwidths : fieldWidths op = [w]) (hmk : ∀ f, instrOf op f = mk (fieldAt w f 0))
    (arg : Argument) : decodeInstr m ⟨b, arg⟩ = some (mk (arg.extractLsb' 0 w)) := by
  have hfield := fieldAt_decodeFields [w] arg Nat.one_pos
  rw [decodeInstr_of_opcodeOf hop, hmk, hwidths]
  exact congrArg (some ∘ mk) hfield

namespace Machine

/-! ### Comparisons (rules R140 to R143) -/

/-- Replacing TEST keeps bits 31:1 (rule R34). -/
theorem setBit_testBit (w : Word) (v : Bool) :
    setBit w testBit v = w &&& 0xFFFFFFFE#32 ||| (if v then 1#32 else 0#32) := by
  cases v <;> rfl

/-- A comparison whose result is `v` writes `fl` alone, and there whether the compared relation holds. -/
theorem setFlag_testBit_writes_relation (s : State) {v : Bool} {p : Prop} [Decidable p] (hv : v = true ↔ p) :
    Frame s (s.setFlag testBit v) [regFl] 0 0 ∧
      (s.setFlag testBit v).fl = s.fl &&& 0xFFFFFFFE#32 ||| (if p then 1#32 else 0#32) := by
  refine ⟨frame_setReg s regFl _, ?_⟩
  simp only [setFlag_fl, setBit_testBit, hv]

/-- Settles O21: the next state is TEST replaced by the relation; equal words are those of equal unsigned value. -/
theorem comparisonsWriteTestAlone : Obligations.ComparisonsWriteTestAlone := by
  refine ⟨fun arg => ⟨?_, ?_, ?_⟩, fun s a b hregs => ⟨?_, ?_, ?_⟩⟩
  · exact decodeInstr_two_fields (op := .teq) rfl rfl (fun _ => rfl) arg
  · exact decodeInstr_two_fields (op := .tgt) rfl rfl (fun _ => rfl) arg
  · exact decodeInstr_two_fields (op := .tlt) rfl rfl (fun _ => rfl) arg
  · exact ⟨_, exec_teq hregs, setFlag_testBit_writes_relation s (decide_eq_true_iff.trans BitVec.toNat_inj.symm)⟩
  · exact ⟨_, exec_tgt hregs, setFlag_testBit_writes_relation s decide_eq_true_iff⟩
  · exact ⟨_, exec_tlt hregs, setFlag_testBit_writes_relation s decide_eq_true_iff⟩

/-! ### Conditional jumps (rules R144 and R145) -/

theorem setReg_ip (s : State) (v : Word) : (s.setReg regIp v).ip = v := setReg_reg_same s regIp v

theorem setReg_ip_sp (s : State) (v : Word) : (s.setReg regIp v).sp = s.sp :=
  (setReg_reg s regIp regSp v).trans (if_neg (by decide))

theorem jumpIfTest_taken {s : State} (h : s.fl.getLsbD 0 = true) (target : Word) :
    s.jumpIfTest target = s.setReg regIp target := if_pos h

theorem jumpIfTest_untaken {s : State} (h : s.fl.getLsbD 0 = false) (target : Word) : s.jumpIfTest target = s :=
  if_neg (Bool.eq_false_iff.1 h)

/-- An instruction whose next state is the jump to `target` does as TEST says. -/
theorem jump_follows_test {i : Instr} {s : State} {target : Word} (hexec : exec i s = .next (s.jumpIfTest target)) :
    (s.fl.getLsbD 0 = true → ∃ t, exec i s = .next t ∧ t.ip = target ∧ Frame s t [regIp] 0 0) ∧
    (s.fl.getLsbD 0 = false → exec i s = .next s) := by
  refine ⟨fun htest => ⟨s.setReg regIp target, ?_, setReg_ip s target, frame_setReg s regIp target⟩, fun htest => ?_⟩
  · rw [hexec, jumpIfTest_taken htest]
  · rw [hexec, jumpIfTest_untaken htest]

/-- Settles O22: both jumps have the same next state, from the immediate or the register. -/
theorem conditionalJumpsFollowTest : Obligations.ConditionalJumpsFollowTest := by
  refine ⟨fun arg => ⟨?_, ?_⟩, fun s target => jump_follows_test (exec_cjmp target),
    fun s reg hregs => jump_follows_test (exec_cjmpr hregs)⟩
  · exact decodeInstr_one_field (op := .cjmp) rfl rfl (fun _ => rfl) arg
  · exact decodeInstr_one_field (op := .cjmpr) rfl rfl (fun _ => rfl) arg

/-! ### Calls (rules R146 to R148) -/

/-- The state a call to `target` leaves when its checks pass (rule R146). -/
def State.called (s : State) (target : Word) : State := (s.pushed s.returnAddress).setReg regIp target

/-- A call with register fields `rs`, as both forms are executed: the fields are checked, then the stack slot. -/
def State.tryCall (s : State) (rs : List RegIdx) (target : Word) : Out :=
  s.checked (s.checkRegs rs ++ [s.checkMem s.sp 4]) (.next (s.called target))

theorem exec_call_eq_tryCall (s : State) (target : Word) : exec (.call target) s = s.tryCall [] target := rfl

theorem exec_callr_eq_tryCall (s : State) (reg : RegIdx) :
    exec (.callr reg) s = s.tryCall [reg] (s.reg reg.toNat) := rfl

theorem returnAddress_toNat (s : State) : s.returnAddress.toNat = (s.ip.toNat + 9) % 2 ^ 32 :=
  BitVec.toNat_add s.ip _

theorem called_sp (s : State) (target : Word) : (s.called target).sp = s.sp + 4 :=
  (setReg_ip_sp _ target).trans (setReg_reg_same (s.setWord s.sp.toNat s.returnAddress) regSp _)

/-- The slot at the old `sp` holds the return address, least significant byte first. -/
theorem called_byte_toNat (s : State) (target : Word) {k : Nat} (hk : k < 4) :
    ((s.called target).byte (s.sp.toNat + k)).toNat = (s.ip.toNat + 9) % 2 ^ 32 / 256 ^ k % 256 := by
  have hbyte : (s.called target).byte (s.sp.toNat + k) = BitVec.ofNat 8 (s.returnAddress.toNat / 256 ^ k) :=
    readByte_memWrite_inside s.mem s.sp.toNat 4 _ k hk
  rw [hbyte, BitVec.toNat_ofNat, returnAddress_toNat]

theorem called_word (s : State) (target : Word) : (s.called target).word s.sp.toNat = s.returnAddress := by
  have hread : memRead (s.called target).mem s.sp.toNat 4 = s.returnAddress.toNat % 256 ^ 4 :=
    memRead_memWrite s.mem s.sp.toNat 4 s.returnAddress.toNat
  have hfits : s.returnAddress.toNat % 256 ^ 4 = s.returnAddress.toNat := Nat.mod_eq_of_lt s.returnAddress.isLt
  rw [State.word, hread, hfits, BitVec.ofNat_toNat, BitVec.setWidth_eq]

theorem frame_called (s : State) (target : Word) : Frame s (s.called target) [regSp, regIp] s.sp.toNat 4 :=
  frame_then_setReg (frame_pushed s s.returnAddress) regIp target

theorem tryCall_fits {s : State} {rs : List RegIdx} (hregs : s.has rs) (target : Word)
    (hfits : s.sp.toNat + 4 ≤ s.cfg.memCapacity) : s.tryCall rs target = .next (s.called target) :=
  checked_none s _ (by rw [checkRegs_ok hregs, checkMem_ok hfits, firstCause_none, firstCause_nil])

/-- Settles O23: both forms are a `tryCall`, the target read before the push; the slot fits or its check raises. -/
theorem callsPushTheReturnAddress : Obligations.CallsPushTheReturnAddress := by
  refine ⟨fun arg => ⟨?_, ?_⟩, fun s i target hcall => ?_⟩
  · exact decodeInstr_one_field (op := .call) rfl rfl (fun _ => rfl) arg
  · exact decodeInstr_one_field (op := .callr) rfl rfl (fun _ => rfl) arg
  · obtain ⟨rs, hregs, hexec⟩ : ∃ rs, s.has rs ∧ exec i s = s.tryCall rs target := by
      rcases hcall with rfl | ⟨reg, rfl, hregs, rfl⟩
      · exact ⟨[], fun _ h => absurd h List.not_mem_nil, exec_call_eq_tryCall s target⟩
      · exact ⟨[reg], hregs, exec_callr_eq_tryCall s reg⟩
    rw [hexec]
    refine ⟨fun hfits => ⟨s.called target, tryCall_fits hregs target hfits, setReg_ip _ target, ?_,
      fun k => called_byte_toNat s target, frame_called s target⟩,
      fun hout => checked_memoryOutOfBounds hregs hout _⟩
    rw [called_sp, BitVec.toNat_add]
    rfl

/-! ### Return from a call (rules R149 and R191) -/

/-- A call that has not faulted found room for its slot and completed. -/
theorem tryCall_completed {s t : State} {rs : List RegIdx} {target : Word} (h : s.tryCall rs target = .next t)
    (hlive : t.status ≠ .faulted) : s.sp.toNat + 4 ≤ s.cfg.memCapacity ∧ t = s.called target := by
  rcases checked_cases s (s.checkRegs rs ++ [s.checkMem s.sp 4]) (.next (s.called target)) with
    ⟨c, -, hraise⟩ | ⟨hnone, hdone⟩
  · obtain rfl : s.raise c = t := Host.Outcome.next.inj (hraise.symm.trans h)
    exact absurd (raise_status s c) hlive
  · rw [firstCause_append, Option.or_eq_none_iff] at hnone
    exact ⟨checkMem_none hnone.2, Host.Outcome.next.inj (h.symm.trans hdone)⟩

/-- Every machine has register 0 (rules R7 and R22). -/
theorem has_ip {s : State} (h : s.cfg.inRange = true) : s.has [0] := by
  simp only [Params.inRange, Bool.and_eq_true, decide_eq_true_eq] at h
  intro r hr
  rw [List.mem_singleton.1 hr, Params.nReg]
  exact Nat.add_pos_left (by omega) s.cfg.gpCount

/-- A word depends on its four bytes alone. -/
theorem word_congr {s t : State} {a : Nat} (h : ∀ k, k < 4 → s.byte (a + k) = t.byte (a + k)) :
    s.word a = t.word a := by
  have h0 : s.byte a = t.byte a := h 0 (by decide)
  apply BitVec.eq_of_toNat_eq
  rw [word_toNat, word_toNat, h0, h 1 (by decide), h 2 (by decide), h 3 (by decide)]

/-- Settles O24: the pre-decrement undoes the call's push, so that `pop %ip` reads the slot the call wrote. -/
theorem popIpReturnsFromACall : Obligations.PopIpReturnsFromACall := by
  intro s t u i hcall hcfg hexec hlive hucfg husp hslot
  obtain ⟨hfits, target, rfl⟩ : s.sp.toNat + 4 ≤ s.cfg.memCapacity ∧ ∃ target, t = s.called target := by
    rcases hcall with ⟨target, rfl⟩ | ⟨reg, rfl⟩
    · rw [exec_call_eq_tryCall] at hexec
      exact (tryCall_completed hexec hlive).imp_right fun h => ⟨_, h⟩
    · rw [exec_callr_eq_tryCall] at hexec
      exact (tryCall_completed hexec hlive).imp_right fun h => ⟨_, h⟩
  have hpop : u.popSlot = s.sp := by rw [State.popSlot, husp, called_sp, BitVec.add_sub_cancel]
  have hword : u.word s.sp.toNat = s.returnAddress := (word_congr hslot).trans (called_word s target)
  refine ⟨_, exec_pop (has_ip (hucfg ▸ hcfg)) (by rwa [hpop, hucfg]), ?_, ?_, ?_, fun _ => rfl⟩
  · rw [hpop, hword, ← returnAddress_toNat]
    exact congrArg BitVec.toNat (setReg_ip _ s.returnAddress)
  · rw [hpop]
    exact (setReg_ip_sp _ _).trans (setReg_reg_same u regSp s.sp)
  · rw [setReg_ipWritten]
    exact Bool.or_true _

end Machine
end Sys2Proof
end

section
/-! PROOF. Bits and shifts (`43_bit_shift.md`), and the operands of a format of three fields. -/

namespace Sys2Proof

/-- The formats of three fields, FRRR, FSB and FGB: each field after the one before it (rule R77). -/
theorem decodeInstr_three_fields {w₁ w₂ w₃ : Nat} {mk : BitVec w₁ → BitVec w₂ → BitVec w₃ → Instr} {m : OpcodeMap}
    {b : Byte} {op : Opcode} (hop : opcodeOf m b = some op) (hwidths : fieldWidths op = [w₁, w₂, w₃])
    (hmk : ∀ f, instrOf op f = mk (fieldAt w₁ f 0) (fieldAt w₂ f 1) (fieldAt w₃ f 2)) (arg : Argument) :
    decodeInstr m ⟨b, arg⟩ =
      some (mk (arg.extractLsb' 0 w₁) (arg.extractLsb' w₁ w₂) (arg.extractLsb' (w₁ + w₂) w₃)) := by
  have hfirst := fieldAt_decodeFields [w₁, w₂, w₃] arg (k := 0) (by simp)
  have hsecond := fieldAt_decodeFields [w₁, w₂, w₃] arg (k := 1) (by simp)
  have hthird := fieldAt_decodeFields [w₁, w₂, w₃] arg (k := 2) (by simp)
  rw [decodeInstr_of_opcodeOf hop, hmk, hwidths]
  exact congrArg some (congr (congrArg₂ mk hfirst hsecond) hthird)

namespace Machine

/-! ### Single bits (rules R160 and R161) -/

/-- Settles O26: bit `idx` of the register is replaced, in one register write; from 32 on nothing is written. -/
theorem sbitChangesOneBit : Obligations.SbitChangesOneBit := by
  refine ⟨decodeInstr_three_fields (op := .sbit) rfl rfl fun _ => rfl, fun s r idx v hregs =>
    ⟨fun hbit => ⟨_, (exec_sbit hregs).trans (by rw [if_pos hbit]), fun b _ => ?_, frame_setReg s r.toNat _⟩,
      fun hpast => (exec_sbit hregs).trans (by rw [if_neg (Nat.not_lt_of_le hpast)])⟩⟩
  have hv : decide (v = 1#1) = v.getLsbD 0 := by revert v; decide
  rw [setReg_reg_same, getLsbD_setBit _ hbit, hv]

/-- A single bit of a word, zero-extended (rule R161). A bit number past 31 reads 0, as the quotient is 0 there. -/
theorem zeroExtend_ofBool_getLsbD_toNat (w : Word) (b : Nat) :
    ((BitVec.ofBool (w.getLsbD b)).zeroExtend 32).toNat = w.toNat / 2 ^ b % 2 := by
  calc ((BitVec.ofBool (w.getLsbD b)).zeroExtend 32).toNat
      = (w.getLsbD b).toNat := by cases w.getLsbD b <;> rfl
    _ = w.toNat / 2 ^ b % 2 := Nat.toNat_testBit w.toNat b

/-- Settles O27: the next state is one register write, of the source's bit. -/
theorem gbitReadsOneBit : Obligations.GbitReadsOneBit := by
  refine ⟨decodeInstr_three_fields (op := .gbit) rfl rfl fun _ => rfl, fun s src dst idx hregs =>
    ⟨_, exec_gbit hregs, ?_, frame_setReg s dst.toNat _⟩⟩
  rw [setReg_reg_same, zeroExtend_ofBool_getLsbD_toNat]

/-! ### Shifts (rules R162 and R163) -/

/-- A shift right divides by the power of two, which from amount 32 on is larger than any word. -/
theorem shiftRight_toNat (v n : Word) : (shiftRight v n).toNat = v.toNat / 2 ^ n.toNat := by
  unfold shiftRight
  split
  · rw [BitVec.toNat_ushiftRight, Nat.shiftRight_eq_div_pow]
  · next hn =>
    have hlt : v.toNat < 2 ^ n.toNat := v.isLt.trans_le (Nat.pow_le_pow_right Nat.two_pos (Nat.le_of_not_lt hn))
    exact (Nat.div_eq_of_lt hlt).symm

/-- A shift left multiplies by the power of two, which from amount 32 on is a multiple of 2^32. -/
theorem shiftLeft_toNat (v n : Word) : (shiftLeft v n).toNat = v.toNat * 2 ^ n.toNat % 2 ^ 32 := by
  unfold shiftLeft
  split
  · rw [BitVec.toNat_shiftLeft, Nat.shiftLeft_eq]
  · next hn =>
    have hdvd : 2 ^ 32 ∣ v.toNat * 2 ^ n.toNat := (pow_dvd_pow 2 (Nat.le_of_not_lt hn)).mul_left v.toNat
    exact (Nat.mod_eq_zero_of_dvd hdvd).symm

/-- Settles O28: the next state of either is one register write, of the shifted word. -/
theorem shiftsAreLogicalAndUnmasked : Obligations.ShiftsAreLogicalAndUnmasked := by
  refine ⟨fun arg => ⟨?_, ?_⟩, fun s src dst amt hregs =>
    ⟨⟨_, exec_shr hregs, frame_setReg s dst.toNat _, ?_⟩, ⟨_, exec_shl hregs, frame_setReg s dst.toNat _, ?_⟩⟩⟩
  · exact decodeInstr_three_fields (op := .shr) rfl rfl (fun _ => rfl) arg
  · exact decodeInstr_three_fields (op := .shl) rfl rfl (fun _ => rfl) arg
  · rw [setReg_reg_same, shiftRight_toNat]
  · rw [setReg_reg_same, shiftLeft_toNat]

end Machine
end Sys2Proof
end

section
/-! PROOF. Unsigned arithmetic modulo 2^32 (`44_arithmetic.md`), and the fault of a zero divisor (rule R171). -/

namespace Sys2Proof.Machine

/-! ### Increment, decrement, sum, difference, product (rules R172 to R176) -/

/-- The difference of two words is the exact one modulo 2^32, also where it is below 0 (rules R173 and R175). -/
theorem word_sub_toNat (x y : Word) : ((x - y).toNat : Int) = (x.toNat - y.toNat : Int) % 2 ^ 32 := by
  have hlt : y.toNat < 2 ^ 32 := y.isLt
  rw [BitVec.toNat_sub]
  omega

/-- Settles O29: the next state of either is one register write, of the word one above or one below. -/
theorem incAndDecWrap : Obligations.IncAndDecWrap := by
  refine ⟨fun arg => ⟨?_, ?_⟩, fun s r hregs =>
    ⟨⟨_, exec_inc hregs, frame_setReg s r.toNat _, ?_⟩, ⟨_, exec_dec hregs, frame_setReg s r.toNat _, ?_⟩⟩⟩
  · exact decodeInstr_one_field (op := .inc) rfl rfl (fun _ => rfl) arg
  · exact decodeInstr_one_field (op := .dec) rfl rfl (fun _ => rfl) arg
  · rw [setReg_reg_same]
    exact BitVec.toNat_add (s.reg r.toNat) 1
  · rw [setReg_reg_same]
    exact word_sub_toNat (s.reg r.toNat) 1

/-- Settles O30: the next state of each is one register write, of the operation on words, so `fl` is in the frame
unless it is the destination. -/
theorem addSubMulWrap : Obligations.AddSubMulWrap := by
  refine ⟨fun arg => ⟨?_, ?_, ?_⟩, fun s a b dst hregs =>
    ⟨⟨_, exec_uadd hregs, frame_setReg s dst.toNat _, ?_⟩, ⟨_, exec_usub hregs, frame_setReg s dst.toNat _, ?_⟩,
      ⟨_, exec_umul hregs, frame_setReg s dst.toNat _, ?_⟩⟩⟩
  · exact decodeInstr_three_fields (op := .uadd) rfl rfl (fun _ => rfl) arg
  · exact decodeInstr_three_fields (op := .usub) rfl rfl (fun _ => rfl) arg
  · exact decodeInstr_three_fields (op := .umul) rfl rfl (fun _ => rfl) arg
  · rw [setReg_reg_same, BitVec.toNat_add]
  · rw [setReg_reg_same, word_sub_toNat]
  · rw [setReg_reg_same, BitVec.toNat_mul]

/-! ### Quotient and remainder (rules R171, R177 and R178) -/

/-- A division by a zero register, whatever it computes, raises its fault and does nothing else (rule R171). -/
theorem alu_divideByZero {s : State} {a b dst : RegIdx} (hregs : s.has [a, b, dst]) (hzero : s.reg b.toNat = 0)
    (op : Word → Word → Word) :
    ∃ t, s.alu op a b dst [checkDivisor (s.get b)] = .next t ∧ Raises s t .divideByZero := by
  have hdivisor : checkDivisor (s.get b) = some .divideByZero := if_pos hzero
  have hcause : firstCause (s.checkRegs [a, b, dst] ++ [checkDivisor (s.get b)]) = some .divideByZero := by
    rw [checkRegs_ok hregs, hdivisor, firstCause_some]
  exact ⟨_, checked_some s _ hcause, raises_raise s _ rfl⟩

/-- Settles O31: with a divisor other than 0 the next state is one register write; with 0 the divisor check raises. -/
theorem divAndModAreUnsigned : Obligations.DivAndModAreUnsigned := by
  refine ⟨fun arg => ⟨?_, ?_⟩, fun s a b dst hregs => ⟨fun hnonzero => ?_, fun hzero => ?_⟩⟩
  · exact decodeInstr_three_fields (op := .udiv) rfl rfl (fun _ => rfl) arg
  · exact decodeInstr_three_fields (op := .umod) rfl rfl (fun _ => rfl) arg
  · have hb : s.reg b.toNat ≠ 0 := fun h => hnonzero (congrArg BitVec.toNat h)
    refine ⟨⟨_, exec_udiv hregs hb, frame_setReg s dst.toNat _, ?_⟩,
      ⟨_, exec_umod hregs hb, frame_setReg s dst.toNat _, ?_⟩⟩
    · rw [setReg_reg_same, BitVec.toNat_udiv]
    · rw [setReg_reg_same, BitVec.toNat_umod]
  · have hb : s.reg b.toNat = 0 := BitVec.eq_of_toNat_eq hzero
    exact ⟨alu_divideByZero hregs hb _, alu_divideByZero hregs hb _⟩

end Sys2Proof.Machine
end

section
/-! PROOF. The stack (`45_stack.md`): `push` stores at the old `sp`, `pop` loads from the pre-decremented one, and a
`pop` after a `push` undoes it. -/

namespace Sys2Proof.Machine

/-! ### Push (rule R190) -/

theorem pushed_sp (s : State) (v : Word) : (s.pushed v).sp = s.sp + 4 :=
  setReg_reg_same (s.setWord s.sp.toNat v) regSp (s.sp + 4)

theorem exec_push_outOfBounds {s : State} {r : RegIdx} (hregs : s.has [r])
    (hout : s.cfg.memCapacity < s.sp.toNat + 4) :
    ∃ t, exec (.push r) s = .next t ∧ Raises s t (.memoryOutOfBounds s.sp 4) :=
  checked_memoryOutOfBounds hregs hout _

/-- Settles O32: in bounds the next state is the pushed one, whose slot is one stored word; out of bounds the memory
check raises. -/
theorem pushStoresAtSp : Obligations.PushStoresAtSp := by
  refine ⟨decodeInstr_one_field (op := .push) rfl rfl fun _ => rfl, fun s r hregs =>
    ⟨fun hfits => ⟨_, exec_push hregs hfits, ?_, setWord_byte s s.sp.toNat _, frame_pushed s _⟩,
      exec_push_outOfBounds hregs⟩⟩
  rw [pushed_sp]
  exact BitVec.toNat_add s.sp 4

/-! ### Pop (rule R191) -/

/-- The pre-decrement is exact modulo 2^32, also where it goes below 0. -/
theorem popSlot_eq {s : State} {a : Word} (h : (a.toNat : Int) = ((s.sp.toNat : Int) - 4) % 2 ^ 32) :
    s.popSlot = a :=
  BitVec.eq_of_toNat_eq (Int.ofNat_inj.1 ((word_sub_toNat s.sp 4).trans h.symm))

/-- The state a `pop` into `r` leaves when its checks pass. -/
def State.popped (s : State) (r : RegIdx) : State :=
  (s.setReg regSp s.popSlot).setReg r.toNat (s.word s.popSlot.toNat)

theorem exec_pop_eq_popped {s : State} {r : RegIdx} (hregs : s.has [r])
    (hfits : s.popSlot.toNat + 4 ≤ s.cfg.memCapacity) : exec (.pop r) s = .next (s.popped r) :=
  exec_pop hregs hfits

/-- The loaded word is the later write, so it stands also where `r` is `sp`. -/
theorem popped_reg (s : State) (r : RegIdx) : (s.popped r).reg r.toNat = s.word s.popSlot.toNat :=
  setReg_reg_same (s.setReg regSp s.popSlot) r.toNat _

theorem popped_sp (s : State) {r : RegIdx} (h : r.toNat ≠ regSp) : (s.popped r).sp = s.popSlot := by
  rw [State.sp, State.popped, setReg_reg, if_neg h.symm, setReg_reg_same]

theorem frame_popped (s : State) (r : RegIdx) : Frame s (s.popped r) [regSp, r.toNat] 0 0 :=
  frame_then_setReg (frame_setReg s regSp s.popSlot) r.toNat _

/-- Settles O33: in bounds the next state is the popped one, its word the four bytes of the slot; out of bounds the
memory check raises. -/
theorem popPreDecrements : Obligations.PopPreDecrements := by
  refine ⟨decodeInstr_one_field (op := .pop) rfl rfl fun _ => rfl, fun s r a hregs ha => ?_⟩
  obtain rfl : s.popSlot = a := popSlot_eq ha
  refine ⟨fun hfits => ⟨s.popped r, exec_pop_eq_popped hregs hfits, ?_, popped_sp s, frame_popped s r⟩,
    fun hout => checked_memoryOutOfBounds hregs hout _⟩
  rw [popped_reg, word_toNat]

/-! ### A push and then a pop (rule R192) -/

/-- A push that has not faulted found room for its slot and completed. -/
theorem exec_push_completed {s t : State} {r : RegIdx} (hregs : s.has [r]) (h : exec (.push r) s = .next t)
    (hlive : t.status ≠ .faulted) : s.sp.toNat + 4 ≤ s.cfg.memCapacity ∧ t = s.pushed (s.reg r.toNat) := by
  by_cases hfits : s.sp.toNat + 4 ≤ s.cfg.memCapacity
  · exact ⟨hfits, Host.Outcome.next.inj (h.symm.trans (exec_push hregs hfits))⟩
  · obtain ⟨u, hu, hfaulted, -⟩ := exec_push_outOfBounds hregs (Nat.lt_of_not_le hfits)
    obtain rfl : u = t := Host.Outcome.next.inj (hu.symm.trans h)
    exact absurd hfaulted hlive

/-- The slot at the old `sp` reads back as the pushed word. -/
theorem pushed_word (s : State) (v : Word) : (s.pushed v).word s.sp.toNat = v := by
  have hfits : v.toNat % 256 ^ 4 = v.toNat := Nat.mod_eq_of_lt v.isLt
  rw [State.word, pushed_mem, memRead_memWrite, hfits, BitVec.ofNat_toNat, BitVec.setWidth_eq]

theorem advance_sp (s : State) (a : Word) : (s.advance a).sp = s.sp :=
  advance_reg_of_ne_ip s a (by decide)

theorem advance_word (s : State) (a : Word) (x : Nat) : (s.advance a).word x = s.word x := by
  rw [State.word, advance_mem, State.word]

theorem pushed_advance_popSlot (s : State) (v a : Word) : ((s.pushed v).advance a).popSlot = s.sp := by
  rw [State.popSlot, advance_sp, pushed_sp, BitVec.add_sub_cancel]

/-- Settles O34: the pre-decrement undoes the push's increment, so that the pop reads the slot the push wrote. -/
theorem pushThenPopRoundTrips : Obligations.PushThenPopRoundTrips := by
  intro s t a r d _ hregs hd hpush hlive
  obtain ⟨hr, hdst⟩ : s.has [r] ∧ s.has [d] :=
    (List.forall_mem_cons.1 hregs).imp_left List.forall_mem_singleton.2
  obtain ⟨hfits, rfl⟩ := exec_push_completed hr hpush hlive
  have hslot : ((s.pushed (s.reg r.toNat)).advance a).popSlot = s.sp := pushed_advance_popSlot s _ a
  have hne : d.toNat ≠ regSp := Nat.ne_of_gt hd
  refine ⟨((s.pushed (s.reg r.toNat)).advance a).popped d, exec_pop_eq_popped ?_ ?_, ?_, ?_, advance_byte _ a⟩
  · rwa [State.has, advance_cfg]
  · rwa [hslot, advance_cfg]
  · rw [popped_reg, hslot, advance_word, pushed_word]
  · rw [popped_sp _ hne, hslot]

end Sys2Proof.Machine
end

section
/-! PROOF. The data bus (`46_io.md`): what `dout` and `din` leave in each outcome, and that no other instruction makes a
transaction with the I/O collaborator. -/

namespace Sys2Proof.Machine

/-! ### `dout` (rule R202) -/

/-- A byte string read from memory, byte by byte (rule R10). -/
theorem readBytes_getD (m : Memory) (a : Nat) {n k : Nat} (hk : k < n) :
    (readBytes m a n).getD k 0 = readByte m (a + k) := by
  induction n generalizing a k with
  | zero => exact absurd hk k.not_lt_zero
  | succ n ih =>
    cases k with
    | zero => rfl
    | succ k => rw [readBytes, List.getD_cons_succ, ih (a + 1) (Nat.lt_of_succ_lt_succ hk), Nat.add_right_comm]; rfl

/-- Settles O35: in bounds the next state is one logged write, of the bytes read from the buffer; out of bounds the
memory check raises. -/
theorem doutWritesItsBuffer : Obligations.DoutWritesItsBuffer := by
  refine ⟨decodeInstr_one_field (op := .dout) rfl rfl fun _ => rfl, ?_⟩
  rintro s sizereg _ hregs rfl
  exact ⟨fun hfits => ⟨_, length_readBytes _ _ _, fun _ => readBytes_getD _ _, exec_dout hregs hfits⟩,
    fun hout => checked_memoryOutOfBounds hregs hout _⟩

/-! ### `din` with an answer (rules R203 and R204) -/

/-- Beside the read, a `din` that completes writes its count register and the delivered bytes alone. -/
theorem frame_received (s : State) (n : Word) (recvreg : RegIdx) (answer : List Byte) (later : List (List Byte)) :
    Frame (s.ioAnswered s.dbport n answer later) (s.received n recvreg answer later) [recvreg.toNat] s.dbdata.toNat
      answer.length :=
  frame_then_setReg (frame_setBytes (s.ioAnswered s.dbport n answer later) s.dbdata.toNat answer) recvreg.toNat _

/-- Settles O36: with an answer no longer than asked for the next state is the received one, the count exact because
it is at most a register's value; out of bounds the memory check raises before the read. -/
theorem dinStoresTheDeliveredBytes : Obligations.DinStoresTheDeliveredBytes := by
  refine ⟨decodeInstr_two_fields (op := .din) rfl rfl fun _ => rfl, ?_⟩
  rintro s sizereg recvreg _ hregs rfl
  refine ⟨fun answer later hfits hans hlen => ?_, fun hout => checked_memoryOutOfBounds hregs hout _⟩
  have hcount : answer.length < 2 ^ 32 := hlen.trans_lt (BitVec.isLt _)
  refine ⟨s.received (s.reg sizereg.toNat) recvreg answer later, ?_, ?_, fun k hk => ?_, frame_received s _ _ _ _⟩
  · rw [exec_din hregs hfits, dinTransfer_stores hans hlen, State.received]
  · rw [received_reg, if_pos rfl, BitVec.toNat_ofNat, Nat.mod_eq_of_lt hcount]
  · exact setBytes_byte_inside _ _ hk

/-- Settles O37: the check on the answer raises from the state in which the read is on record. -/
theorem overlongAnswersFault : Obligations.OverlongAnswersFault := by
  rintro s sizereg recvreg _ answer later hregs rfl hfits hans hlong
  exact ⟨_, (exec_din hregs hfits).trans (dinTransfer_faults hans hlong), raises_raise _ _ rfl, rfl⟩

/-! ### `din` with no answer (rules R203 and R262) -/

/-- A step of a `din` from the state in which it waits, with still no answer, leaves that state as it is. -/
theorem State.AtDin.step_keeps_waiting {s : State} {sizereg recvreg : RegIdx} (h : s.AtDin sizereg recvreg)
    (hnone : s.answers = []) :
    step (s.beginStep.ioWaits s.dbport (s.reg sizereg.toNat)) =
      .next (s.beginStep.ioWaits s.dbport (s.reg sizereg.toNat)) := by
  have hwaiting : (s.beginStep.ioWaits s.dbport (s.reg sizereg.toNat)).AtDin sizereg recvreg :=
    ⟨h.running, h.inRange, h.fits, h.decodes, h.registers, h.buffer⟩
  exact hwaiting.step_waits hnone

/-- Settles O38: the first step issues the request, and the state it leaves steps to itself. -/
theorem unansweredDinWaitsForEver : Obligations.UnansweredDinWaitsForEver := by
  intro s sizereg recvreg hrun hcfg hfits hdecode hregs hbuffer hnone
  have hdin : s.AtDin sizereg recvreg := ⟨hrun, hcfg, hfits, hdecode, hregs, hbuffer⟩
  exact ⟨_, hdin.step_waits hnone, hrun, rfl, fun _ => rfl, fun _ => rfl, rfl,
    run_of_step_eq_self Sys2Proof.core (hdin.step_keeps_waiting hnone)⟩

/-! ### Transactions (rule R201) -/

/-- An instruction that has not faulted has its completed effect. -/
theorem exec_completed {i : Instr} {s t : State} (h : exec i s = .next t) (hlive : t.status ≠ .faulted) :
    t = effect i s := by
  rcases exec_ended h with ⟨c, rfl, _⟩ | ⟨_, _, _, _, _, _, _, rfl⟩ | ⟨ht, _⟩
  · exact absurd (raise_status s c) hlive
  · exact absurd (raise_status _ _) hlive
  · exact ht

/-- No completed effect is a fault. -/
theorem effect_not_faulted {s : State} (hs : s.status ≠ .faulted) (i : Instr) : (effect i s).status ≠ .faulted := by
  obtain ⟨-, -, -, -, hstatus, -⟩ := effect_frame i s
  rw [hstatus]
  split
  · exact Status.noConfusion
  · exact hs

/-- A `din` that has completed has taken the first answer, or waits because there is none. -/
theorem effect_din_transaction (s : State) (sizereg recvreg : RegIdx) :
    (∃ answer, s.answers = answer :: (effect (.din sizereg recvreg) s).answers ∧
      (effect (.din sizereg recvreg) s).pendingRead = none ∧
      (effect (.din sizereg recvreg) s).ioLog = s.ioLog ++ [.read s.dbport (s.reg sizereg.toNat) answer]) ∨
    (s.answers = [] ∧ (effect (.din sizereg recvreg) s).pendingRead = some ⟨s.dbport, s.reg sizereg.toNat⟩ ∧
      (effect (.din sizereg recvreg) s).ioLog = s.ioLog ∧ (effect (.din sizereg recvreg) s).answers = []) := by
  simp only [effect]
  split
  · next hnone => exact .inr ⟨hnone, rfl, rfl, hnone⟩
  · next answer later hans => exact .inl ⟨answer, hans, rfl, rfl⟩

/-- The completed effect of any other instruction makes no transaction. -/
theorem effect_no_transaction {i : Instr} (hdout : i.opcode ≠ .dout) (hdin : i.opcode ≠ .din) (s : State) :
    (effect i s).ioLog = s.ioLog ∧ (effect i s).answers = s.answers := by
  cases i with
  | dout => exact absurd rfl hdout
  | din => exact absurd rfl hdin
  | cjmp | cjmpr => simp only [effect, State.jumpIfTest]; split <;> exact ⟨rfl, rfl⟩
  | sbit => simp only [effect]; split <;> exact ⟨rfl, rfl⟩
  | _ => exact ⟨rfl, rfl⟩

/-- Settles O39: an instruction that has not faulted has its completed effect, whose transactions are those of its
opcode; a raised check makes none; and the check on an answer raises after its read. -/
theorem onlyDoutAndDinTouchThePort : Obligations.OnlyDoutAndDinTouchThePort := by
  intro i s t hs h
  refine ⟨fun hop hlive => ?_, ?_, fun hfaulted => ?_, fun hdout hdin => ?_⟩
  · obtain rfl := exec_completed h hlive
    cases i with
    | dout sizereg => exact ⟨_, rfl, rfl⟩
    | _ => cases hop
  · rintro sizereg recvreg rfl hlive
    obtain rfl := exec_completed h hlive
    exact effect_din_transaction s sizereg recvreg
  · rcases exec_ended h with ⟨c, rfl, _⟩ | ⟨_, _, answer, later, rfl, hans, _, rfl⟩ | ⟨rfl, _⟩
    · exact .inl ⟨rfl, rfl⟩
    · exact .inr ⟨rfl, ⟨_, rfl, rfl⟩, _, answer, hans, rfl⟩
    · exact absurd hfaulted (effect_not_faulted hs i)
  · rcases exec_ended h with ⟨c, rfl, _⟩ | ⟨_, _, _, _, rfl, _⟩ | ⟨rfl, _⟩
    · exact ⟨rfl, rfl⟩
    · exact absurd rfl hdin
    · exact effect_no_transaction hdout hdin s

end Sys2Proof.Machine
end

section
/-! PROOF. Faults (`60_exceptions.md`): what a faulting step leaves alone, and which faults each opcode can raise. -/

namespace Sys2Proof.Machine

/-! ### What a fault leaves alone (rule R224) -/

/-- An execute phase that faults has raised a cause from the state it began in or, in a `din` that got too long an
answer, from the one with the read on record (rule R204). -/
theorem exec_faulted {i : Instr} {s t : State} (h : exec i s = .next t) (hs : s.status ≠ .faulted)
    (hfaulted : t.status = .faulted) :
    ∃ c, Raises s t c ∨ ∃ port n answer later, Raises (s.ioAnswered port n answer later) t c := by
  rcases exec_ended h with ⟨c, rfl, hphase, _⟩ | ⟨_, _, _, _, _, _, _, rfl⟩ | ⟨rfl, _⟩
  · exact ⟨c, .inl (raises_raise s c hphase)⟩
  · exact ⟨_, .inr ⟨_, _, _, _, raises_raise _ _ rfl⟩⟩
  · exact absurd hfaulted (effect_not_faulted hs i)

/-- The same of a whole step: a fault of the fetch or of the decode is raised before the execute phase, and a run that
has faulted is not advanced. -/
theorem step_faulted {s t : State} (hrun : s.status = .running) (h : step s = .next t) (hfaulted : t.status = .faulted) :
    ∃ c, Raises s.beginStep t c ∨ ∃ port n answer later, Raises (s.beginStep.ioAnswered port n answer later) t c := by
  rcases step_cases h with ⟨hstop, -⟩ | ⟨-, -, ⟨-, rfl⟩ | ⟨-, rfl⟩ | ⟨i, u, -, hexec, rfl⟩⟩
  · exact absurd hrun hstop
  · exact ⟨_, .inl (raises_raise _ _ rfl)⟩
  · exact ⟨_, .inl (raises_raise _ _ rfl)⟩
  · rw [advance_status] at hfaulted
    rw [advance_of_not_running (by simp [hfaulted])]
    exact exec_faulted hexec (by simp [hrun]) hfaulted

/-- Settles O13: neither the start of a step nor a read on record touches what the statement speaks of, and every
cause ends the run. -/
theorem faultingStepsCommitNothing : Obligations.FaultingStepsCommitNothing := by
  intro s t hrun hstep hfaulted
  obtain ⟨c, ⟨-, hfault, hreports, hregs, hbytes, -, hcfg, hsize, -⟩ |
    ⟨_, _, _, _, -, hfault, hreports, hregs, hbytes, -, hcfg, hsize, -⟩⟩ := step_faulted hrun hstep hfaulted
  all_goals exact ⟨c, severity_isFatal c, hfault, hreports, hregs, hbytes, hcfg, hsize⟩

/-! ### The faults of each opcode (rule R223) -/

/-- An instruction of this opcode, run from a state with no fault recorded, records a fault with this code. -/
def CanRaise (op : Opcode) (n : Nat) : Prop :=
  ∃ (i : Instr) (s t : State) (f : FaultRecord), i.opcode = op ∧ s.fault = none ∧ exec i s = .next t ∧
    t.fault = some f ∧ f.cause.code = n

theorem mem_raisable_of_canRaise {op : Opcode} {n : Nat} (h : CanRaise op n) : n ∈ raisable op := by
  obtain ⟨i, s, t, f, rfl, hnone, hexec, hfault, rfl⟩ := h
  rcases exec_ended hexec with ⟨c, rfl, _, hcode, _⟩ | ⟨_, _, _, _, rfl, _, _, rfl⟩ | ⟨rfl, _⟩
  · obtain rfl : faultRecord c s.ip = f := Option.some.inj hfault
    exact hcode
  · obtain rfl : faultRecord _ _ = f := Option.some.inj hfault
    show 7 ∈ raisable .din
    decide
  · obtain ⟨-, hkept, -⟩ := effect_frame i s
    rw [hkept, hnone] at hfault
    cases hfault

@[simp] theorem instrOf_opcode (op : Opcode) (fields : List Nat) : (instrOf op fields).opcode = op := by
  cases op <;> rfl

/-- A run of an instruction that raises a cause is a witness of its code. -/
theorem canRaise_of_raise {op : Opcode} (fields : List Nat) (s : State) {u : State} {c : Cause} (hnone : s.fault = none)
    (h : exec (instrOf op fields) s = .next (u.raise c)) : CanRaise op c.code :=
  ⟨instrOf op fields, s, u.raise c, _, instrOf_opcode op fields, hnone, h, raise_fault u c, rfl⟩

/-- The smallest machine, five registers and no memory, with every register 0 but `dbdata` and an answer of one byte to
come. -/
def smallest (dbdata : Word) : State :=
  (State.construct ⟨0, 5, 0, defaultOpcodeMap⟩ [[0]]).setReg regDbdata dbdata

/-- Every `reg` field names register 5 of 5. -/
theorem canRaise_registerOutOfRange {op : Opcode} (h : 4 ∈ raisable op) : CanRaise op 4 := by
  cases op with
  | cjmp | call | halt => simp [raisable] at h
  | _ => exact canRaise_of_raise [5, 5, 5] (smallest 0) (c := .registerOutOfRange 5) rfl rfl

/-- No word is in bounds, and no buffer at address 1, even an empty one. -/
theorem canRaise_memoryOutOfBounds {op : Opcode} (h : 5 ∈ raisable op) : CanRaise op 5 := by
  cases op with
  | mget | mset | call | callr | push | pop | dout | din =>
    exact canRaise_of_raise [0, 0, 0] (smallest 1) (c := .memoryOutOfBounds _ _) rfl rfl
  | _ => simp [raisable] at h

/-- Every register operand is 0, the divisor too. -/
theorem canRaise_divideByZero {op : Opcode} (h : 6 ∈ raisable op) : CanRaise op 6 := by
  cases op with
  | udiv | umod => exact canRaise_of_raise [0, 0, 0] (smallest 0) (c := .divideByZero) rfl rfl
  | _ => simp [raisable] at h

/-- An empty buffer at address 0 is in bounds, and the answer is one byte longer. -/
theorem canRaise_ioContractViolation {op : Opcode} (h : 7 ∈ raisable op) : CanRaise op 7 := by
  cases op with
  | din => exact canRaise_of_raise [0, 0] (smallest 0) (c := .ioContractViolation _ _ _) rfl rfl
  | _ => simp [raisable] at h

/-- The causes that only `load_program`, the fetch and the decode raise have codes 1 to 3 (rule R222). -/
theorem raisable_subset (op : Opcode) : raisable op ⊆ [4, 5, 6, 7] := by cases op <;> decide

/-- Settles O15: the ways an execute phase can end give no other code, and each listed one has its witness. -/
theorem eachOpcodeRaisesExactlyItsFaults : Obligations.EachOpcodeRaisesExactlyItsFaults := by
  intro op n
  refine ⟨mem_raisable_of_canRaise, fun h => ?_⟩
  have hcode : n = 4 ∨ n = 5 ∨ n = 6 ∨ n = 7 := by simpa using raisable_subset op h
  rcases hcode with rfl | rfl | rfl | rfl
  · exact canRaise_registerOutOfRange h
  · exact canRaise_memoryOutOfBounds h
  · exact canRaise_divideByZero h
  · exact canRaise_ioContractViolation h

end Sys2Proof.Machine
end

section
/-! PROOF. The host's commands (`70_reset_and_hazards.md`): in which status each is accepted, that those accepted keep a
sound state sound, and the first step of a program. -/

namespace Sys2Proof.Machine

/-! ### Which commands are accepted (rules R250, R252 and R261) -/

theorem construct_next {p : Params} {oracle : List (List Byte)} {t : State} (h : construct p oracle = .next t) :
    p.valid = true ∧ t = State.construct p oracle := by
  unfold construct at h
  split at h
  · next hvalid => exact ⟨hvalid, (Host.Outcome.next.inj h).symm⟩
  · cases h

theorem loadProgram_refused {s : State} (h : s.status ≠ .empty) (prog : List RawInstr) :
    s.loadProgram prog = .refused .loadNotEmpty := by
  unfold State.loadProgram
  split
  · next hempty => exact absurd hempty h
  all_goals rfl

/-- An accepted load is one in EMPTY, and loads the program or raises the preload fault (rule R251). -/
theorem loadProgram_next {s t : State} {prog : List RawInstr} (h : s.loadProgram prog = .next t) :
    s.status = .empty ∧ ((programBytes prog ≤ s.cfg.memCapacity ∧ t = s.loaded prog) ∨
      t = s.raise (.programTooLarge (programBytes prog) s.cfg.memCapacity)) := by
  by_cases hempty : s.status = .empty
  · refine ⟨hempty, ?_⟩
    rcases le_or_gt (programBytes prog) s.cfg.memCapacity with hfit | hbig
    · rw [loadProgram_fits hempty hfit] at h
      exact .inl ⟨hfit, (Host.Outcome.next.inj h).symm⟩
    · rw [loadProgram_tooLarge hempty hbig] at h
      exact .inr (Host.Outcome.next.inj h).symm
  · rw [loadProgram_refused hempty] at h
    cases h

theorem startRun_ready {s : State} (h : s.status = .ready) : s.startRun = .next { s with status := .running } := by
  rw [State.startRun, h]

theorem startRun_refused {s : State} (h : s.status ≠ .ready) : s.startRun = .refused .runNotReady := by
  unfold State.startRun
  split
  · next hready => exact absurd hready h
  all_goals rfl

theorem startRun_next {s t : State} (h : s.startRun = .next t) :
    s.status = .ready ∧ t = { s with status := .running } := by
  by_cases hready : s.status = .ready
  · rw [startRun_ready hready] at h
    exact ⟨hready, (Host.Outcome.next.inj h).symm⟩
  · rw [startRun_refused hready] at h
    cases h

theorem answerRead_next {s t : State} {answer : List Byte} (h : s.answerRead answer = .next t) :
    s.pendingRead.isSome = true ∧ t = { s with answers := s.answers ++ [answer] } := by
  by_cases hp : s.pendingRead = none
  · rw [answerRead_of_none hp] at h
    cases h
  · have hsome := Option.isSome_iff_ne_none.2 hp
    rw [answerRead_of_pending hsome] at h
    exact ⟨hsome, (Host.Outcome.next.inj h).symm⟩

/-- Settles O54: each command looks at the status first. -/
theorem commandsFollowTheLifecycle : Obligations.CommandsFollowTheLifecycle :=
  ⟨fun _ prog h => loadProgram_refused h prog, fun _ => startRun_refused, fun _ => startRun_ready⟩

/-! ### Sound states stay sound (rules R250 to R253 and R261) -/

/-- No read waits outside RUNNING in a sound state (rule R100). -/
theorem State.Inv.pendingRead_eq_none {s : State} (h : s.Inv) (hstop : s.status ≠ .running) : s.pendingRead = none := by
  obtain ⟨-, -, -, hp⟩ := h
  simpa using mt hp hstop

/-- A load that fits writes bytes in bounds and the two registers that every machine has (rules R41 and R251). -/
theorem loaded_inv {s : State} {prog : List RawInstr} (h : s.Inv) (hempty : s.status = .empty)
    (hfit : programBytes prog ≤ s.cfg.memCapacity) : (s.loaded prog).Inv := by
  have hnone := h.pendingRead_eq_none (by simp [hempty])
  obtain ⟨hvalid, hstored, hagree, -⟩ := h
  obtain ⟨hfault, hreports⟩ := (faultsAgree_iff_of_not_faulted (by simp [hempty])).1 hagree
  have hip : regIp < s.cfg.nReg := lt_of_lt_of_le (by decide) (five_le_nReg hvalid)
  have hsp : regSp < s.cfg.nReg := lt_of_lt_of_le (by decide) (five_le_nReg hvalid)
  have himage : 0 + (programImage prog).length ≤ s.cfg.memCapacity := by
    rwa [Nat.zero_add, length_programImage]
  refine ⟨hvalid, setReg_stored 0 (setReg_stored _ (setBytes_stored hstored himage) hsp) hip, ?_, ?_⟩
  · exact (faultsAgree_iff_of_not_faulted Status.noConfusion).2 ⟨hfault, hreports⟩
  · intro hsome
    rw [show (s.loaded prog).pendingRead = none from hnone] at hsome
    cases hsome

/-- A load too large raises the first fault, and nothing waits (rules R225 and R251). -/
theorem raise_inv_of_empty {s : State} (h : s.Inv) (hempty : s.status = .empty) (c : Cause) : (s.raise c).Inv := by
  have hnone := h.pendingRead_eq_none (by simp [hempty])
  obtain ⟨hvalid, hstored, hagree, -⟩ := h
  obtain ⟨-, hreports⟩ := (faultsAgree_iff_of_not_faulted (by simp [hempty])).1 hagree
  exact ⟨hvalid, hstored, raise_faultsAgree hreports c, by simp [hnone]⟩

/-- The start of a run changes the status alone, from one that is no fault to another (rule R253). -/
theorem started_inv {s : State} (h : s.Inv) (hready : s.status = .ready) : State.Inv { s with status := .running } := by
  obtain ⟨hvalid, hstored, hagree, -⟩ := h
  have hclear := (faultsAgree_iff_of_not_faulted (by simp [hready])).1 hagree
  exact ⟨hvalid, hstored, (faultsAgree_iff_of_not_faulted Status.noConfusion).2 hclear, fun _ => rfl⟩

/-- Settles O50, by what each accepted command does; soundness does not speak of the answers to come. -/
theorem hostCommandsKeepTheInvariant : Obligations.HostCommandsKeepTheInvariant := by
  refine ⟨fun p oracle t hcommand => ?_, fun s t prog h hcommand => ?_, fun s t h hcommand => ?_,
    fun s t answer h hcommand => ?_⟩
  · obtain ⟨hvalid, rfl⟩ := construct_next hcommand
    exact construct_inv hvalid oracle
  · obtain ⟨hempty, ⟨hfit, rfl⟩ | rfl⟩ := loadProgram_next hcommand
    · exact loaded_inv h hempty hfit
    · exact raise_inv_of_empty h hempty _
  · obtain ⟨hready, rfl⟩ := startRun_next hcommand
    exact started_inv h hready
  · obtain ⟨-, rfl⟩ := answerRead_next hcommand
    exact h

/-! ### The first step (rules R253 and R254) -/

/-- The state that a load and the start of the run leave. -/
def State.launched (s : State) (prog : List RawInstr) : State := { s.loaded prog with status := .running }

theorem launched_ip (s : State) (prog : List RawInstr) : (s.launched prog).ip = 0 := loaded_reg s prog regIp

/-- The 9 bytes at `ip` are the first instruction's. -/
theorem launched_bytes_at_ip (s : State) (r : RawInstr) (rest : List RawInstr) :
    readBytes (s.launched (r :: rest)).mem (s.launched (r :: rest)).ip.toNat 9 = encodeRaw r := by
  rw [launched_ip]
  exact loaded_instr_bytes s (prog := r :: rest) (j := 0) rfl

/-- Settles O55: `ip` is 0, where the load has placed the first instruction's 9 bytes, and a step runs the instruction
that the bytes at `ip` decode to. -/
theorem firstStepRunsTheFirstInstruction : Obligations.FirstStepRunsTheFirstInstruction := by
  intro p oracle r rest i hvalid hfits hdecode
  have hip := launched_ip (State.construct p oracle) (r :: rest)
  have hcfg : p.inRange = true := (Bool.and_eq_true_iff.1 hvalid).1
  have hfetch : ((State.construct p oracle).launched (r :: rest)).ip.toNat + 9 ≤ p.memCapacity := by
    rw [hip]
    show 0 + 9 ≤ p.memCapacity
    omega
  have hbytes : decode p.opcodes _ = .ok i :=
    (congrArg _ (launched_bytes_at_ip (State.construct p oracle) r rest)).trans (decode_encodeRaw hdecode)
  have hstep := stepRunsTheDecodedInstruction ((State.construct p oracle).launched (r :: rest)) i rfl hcfg hfetch hbytes
  rw [hip] at hstep
  exact ⟨_, _, loadProgram_fits rfl hfits, startRun_ready rfl, hip, hstep⟩

end Sys2Proof.Machine
end
